-- ==== Sys2Proof/Word.lean ====
section
/-! DEFINITION. The word types of KPREP: the byte (00_scope.md R7), the 24-bit command word (30_encoding.md R61), the 9-bit
reduction polynomial (00_scope.md R5) and the 10-bit response word (30_encoding.md R65). -/

namespace Sys2Proof

/-- An unsigned integer in 0..255 (R7). `+` on it is the sum modulo 256 and `^^^` is XOR (R8). -/
abbrev Byte := BitVec 8

/-- What the host presents on `CMD` (R60, R61). -/
abbrev CmdWord := BitVec 24

/-- A polynomial of degree at most 8 over GF(2): bit `k` is the coefficient of `X^k` (R100). -/
abbrev Poly9 := BitVec 9

/-- What the block answers on `RSP` (R60, R65). -/
abbrev RspWord := BitVec 10

end Sys2Proof
end

