-- ==== Sys2Proof/Config.lean ====
section
/-! DEFINITION. The constants the spec fixes (00_scope.md R6), the build-time parameters of an instance as plain data
(R5, 10_state.md R25), and the free values: what the spec leaves open, with no body, so that no proof can rest on a value. -/

namespace Sys2Proof

/-- The mixer's first seed, the output at index -1 (R6, R91). -/
def C1 : Byte := 0x76

/-- The mixer's second seed, the output at index -2 (R6, R91). -/
def C2 : Byte := 0x6a

/-- The number of bytes of PaddingConstant (R6). -/
abbrev PAD_LEN : Nat := 32

/-- The number of entries of SubstitutionTable (R6). -/
abbrev SBOX_LEN : Nat := 256

/-- The number of bytes of each caller-owned buffer (20_memory.md R40). -/
abbrev BUF_LEN : Nat := 256

/-- The build-time parameters of an instance (R5). `sbox` holds the table where HAS_SBOX is true and nothing where it is
false, because SBOX_TABLE "exists only when HAS_SBOX". -/
structure Build where
  irredPoly : Poly9
  padConst : Vector Byte PAD_LEN
  sbox : Option (Vector Byte SBOX_LEN)
  deriving DecidableEq, Repr

/-- HAS_SBOX (R5, R117). -/
def Build.hasSbox (b : Build) : Bool := b.sbox.isSome

/-- The polynomials of degree 8 irreducible over GF(2), as 42_gf_alpha.md R104 (iv) lists them. -/
def irreduciblePolys : Vector Poly9 30 :=
  #v[0x11B, 0x11D, 0x12B, 0x12D, 0x139, 0x13F, 0x14D, 0x15F, 0x163, 0x165, 0x169, 0x171, 0x177, 0x17B, 0x187,
     0x18B, 0x18D, 0x19F, 0x1A3, 0x1A9, 0x1B1, 0x1BD, 0x1C3, 0x1CF, 0x1D7, 0x1DD, 0x1E7, 0x1F3, 0x1F5, 0x1F9]

/-- Which admissible IRRED_POLY this instance was built with: open, 92_eei_decisions.md D9 (log entry 2). -/
opaque Config.irredChoice : Fin 30

/-- The bytes of PAD_CONST: open, 92_eei_decisions.md D10 (log entry 3). -/
opaque Config.padByte : Fin PAD_LEN → Byte

/-- Whether the build has the substitution table: open, 92_eei_decisions.md D11 (log entry 4). -/
opaque Config.tablePresent : Bool

/-- The substitution table as a permutation: open, 92_eei_decisions.md D11 (log entry 4). -/
opaque Config.tablePerm : Equiv.Perm (Fin SBOX_LEN)

/-- The byte IBUF holds at an index after reset: any value, 93_implementation_defined.md U9 (log entry 5). -/
opaque Config.freeIbufByte : Nat → Byte

/-- The byte OBUF holds at an index after reset: any value, 93_implementation_defined.md U9 (log entry 5). -/
opaque Config.freeObufByte : Nat → Byte

/-- The parameters of the instance that reset leaves: every admissible choice, and nothing else, is possible. -/
def Config.build : Build where
  irredPoly := irreduciblePolys.get Config.irredChoice
  padConst := Vector.ofFn Config.padByte
  sbox := if Config.tablePresent then some (Vector.ofFn fun i => BitVec.ofFin (Config.tablePerm i)) else none

end Sys2Proof
end

