-- ==== Sys2Proof/Syntax.lean ====
section
/-! DEFINITION. The six commands of the opcode map (30_encoding.md R63), one constructor a row of spec/opcode_table.json, and
the lines of a host script (R67, 70_reset_and_hazards.md R146). -/

namespace Sys2Proof

/-- A command with its operands, as the fields of the word give them (R62, R63). -/
inductive Instr where
  /-- `PAD L, kb` (R80). -/
  | pad (len kb : Byte)
  /-- `PADC idx` (R81). -/
  | padc (idx : BitVec 5)
  /-- `MIX kb` (R90). -/
  | mix (kb : Byte)
  /-- `AMUL x` (R101). -/
  | amul (x : Byte)
  /-- `ADIV x` (R102). -/
  | adiv (x : Byte)
  /-- `SBOX idx` (R115). -/
  | sbox (idx : Byte)
  deriving DecidableEq, Repr

/-- One line of a host script (R67): a command word on `CMD`, or an action of the host between two commands. -/
inductive ScriptLine where
  /-- The host presents a word on `CMD` (R60). -/
  | command (w : CmdWord)
  /-- `host: IBUF[m, n) <- b0 b1 ...` (R67). -/
  | storeIbuf (m : Nat) (bytes : List Byte)
  /-- The host overwrites `OBUF[m, n)` between commands (70_reset_and_hazards.md R147). -/
  | storeObuf (m : Nat) (bytes : List Byte)
  /-- `host: IBUF[0, n) <- OBUF[0, n)` (R67, 20_memory.md R52). -/
  | copyObufToIbuf (n : Nat)
  /-- The host asserts a reset input between commands (70_reset_and_hazards.md R140, log entry 14). -/
  | assertReset
  deriving DecidableEq, Repr

end Sys2Proof
end

