-- ==== Sys2Proof/WellFormed.lean ====
section
/-! DEFINITION. What an admissible build, a command of a build and a host line must satisfy. -/

namespace Sys2Proof

/-- Constraints (i) and (ii) of 42_gf_alpha.md R104; (iii) is the width. -/
def Poly9.endsSet (p : Poly9) : Bool := p.getLsbD 8 && p.getLsbD 0

/-- A build the spec admits (00_scope.md R5): IRRED_POLY irreducible of degree 8 (R104), and a table, if there is one, that
holds each byte value exactly once (43_substitution_table.md R116): 256 entries, none repeated. -/
abbrev Build.WellFormed (b : Build) : Prop :=
  b.irredPoly ∈ irreduciblePolys.toList ∧ b.sbox.all (fun table => decide table.toList.Nodup) = true

/-- A command exists in a build: SBOX only where the table is present (30_encoding.md R64, 43_substitution_table.md R117). The
operands' ranges are their types. -/
def Instr.wellFormed (hasSbox : Bool) : Instr → Bool
  | .pad _ _ => true
  | .padc _ => true
  | .mix _ => true
  | .amul _ => true
  | .adiv _ => true
  | .sbox _ => hasSbox

/-- A script line names only indices 0..255 of the buffers (20_memory.md R40). -/
def ScriptLine.wellFormed : ScriptLine → Bool
  | .command _ => true
  | .storeIbuf m bytes => m + bytes.length ≤ BUF_LEN
  | .storeObuf m bytes => m + bytes.length ≤ BUF_LEN
  | .copyObufToIbuf n => n ≤ BUF_LEN
  | .assertReset => true

end Sys2Proof
end

