-- ==== Sys2Proof/Decode.lean ====
section
/-! DEFINITION. The decoder of command words (30_encoding.md R61 to R64, R68), the encoder, the opcode map as rows and the
assembler spelling (R67). -/

namespace Sys2Proof

/-- Why a word is no command: the kinds R64 lists. The block answers the same status for each (R122). -/
inductive IllegalWord where
  /-- `op = 0x00` or `op` in `0x07..0xFF`. -/
  | unassignedOpcode
  /-- A must-be-zero field of PADC, MIX, AMUL, ADIV or SBOX is not zero (a PADC index above 31 among them). -/
  | mustBeZero
  /-- SBOX in a build without the table. -/
  | tableAbsent
  deriving DecidableEq, Repr

/-- `CMD[23:16]` (R61). -/
def CmdWord.op (w : CmdWord) : Byte := w.extractLsb' 16 8

/-- `CMD[15:8]` (R61). -/
def CmdWord.a (w : CmdWord) : Byte := w.extractLsb' 8 8

/-- `CMD[7:0]` (R61). -/
def CmdWord.b (w : CmdWord) : Byte := w.extractLsb' 0 8

/-- The command `i`, if the word's must-be-zero bits are zero (R64). -/
def ifZero {n : Nat} (mustBeZero : BitVec n) (i : Instr) : Except IllegalWord Instr :=
  if mustBeZero = 0 then .ok i else .error .mustBeZero

/-- The decoding algorithm of R68, total on all 24-bit words; `hasSbox` is the build's HAS_SBOX. -/
def decode (hasSbox : Bool) (w : CmdWord) : Except IllegalWord Instr :=
  if CmdWord.op w = 0x01 then .ok (.pad (CmdWord.a w) (CmdWord.b w))
  else if CmdWord.op w = 0x02 then
    ifZero ((CmdWord.a w).extractLsb' 5 3 ++ CmdWord.b w) (.padc ((CmdWord.a w).extractLsb' 0 5))
  else if CmdWord.op w = 0x03 then ifZero (CmdWord.a w) (.mix (CmdWord.b w))
  else if CmdWord.op w = 0x04 then ifZero (CmdWord.b w) (.amul (CmdWord.a w))
  else if CmdWord.op w = 0x05 then ifZero (CmdWord.b w) (.adiv (CmdWord.a w))
  else if CmdWord.op w = 0x06 then
    if hasSbox then ifZero (CmdWord.b w) (.sbox (CmdWord.a w)) else .error .tableAbsent
  else .error .unassignedOpcode

/-- The command word `{op, a, b}` (R61). -/
def assemble (op a b : Byte) : CmdWord := (op ++ a ++ b : BitVec 24)

/-- The word of a command, from the patterns of R63 and the table of R67. -/
def encode : Instr → CmdWord
  | .pad len kb => assemble 0x01 len kb
  | .padc idx => assemble 0x02 (0#3 ++ idx : BitVec 8) 0x00
  | .mix kb => assemble 0x03 0x00 kb
  | .amul x => assemble 0x04 x 0x00
  | .adiv x => assemble 0x05 x 0x00
  | .sbox idx => assemble 0x06 idx 0x00

/-- One row of the opcode map: a word `w` is the row's command when `w AND mask = pattern` (R63). -/
structure OpcodeRow where
  mask : CmdWord
  pattern : CmdWord
  deriving DecidableEq, Repr

/-- The word selects the row (R63). -/
def OpcodeRow.selects (r : OpcodeRow) (w : CmdWord) : Bool := w &&& r.mask = r.pattern

/-- The row of a command, with the table's match and mask (R63). -/
def Instr.row : Instr → OpcodeRow
  | .pad _ _ => ⟨0xFF0000, 0x010000⟩
  | .padc _ => ⟨0xFFE0FF, 0x020000⟩
  | .mix _ => ⟨0xFFFF00, 0x030000⟩
  | .amul _ => ⟨0xFF00FF, 0x040000⟩
  | .adiv _ => ⟨0xFF00FF, 0x050000⟩
  | .sbox _ => ⟨0xFF00FF, 0x060000⟩

/-- The six rows in the table's order (R63). -/
def opcodeRows : List OpcodeRow :=
  [(Instr.pad 0 0).row, (Instr.padc 0).row, (Instr.mix 0).row, (Instr.amul 0).row, (Instr.adiv 0).row, (Instr.sbox 0).row]

/-- The spelling of a command, numbers in decimal (R67). -/
def Instr.spelling : Instr → String
  | .pad len kb => "PAD " ++ toString len.toNat ++ ", " ++ toString kb.toNat
  | .padc idx => "PADC " ++ toString idx.toNat
  | .mix kb => "MIX " ++ toString kb.toNat
  | .amul x => "AMUL " ++ toString x.toNat
  | .adiv x => "ADIV " ++ toString x.toNat
  | .sbox idx => "SBOX " ++ toString idx.toNat

/-- The command word whose low `nbits` bits are those of `w` and whose other bits are 0 (DEDUCED, log entry 16). Bits of `w` at
`nbits` and above, and at 24 and above, are cut off (DESIGN CHOICE, log entry 18). -/
def wordOfBits (nbits w : Nat) : CmdWord := BitVec.ofNat 24 (w % 2 ^ nbits)

/-- What the decoder reads from a word of the opcode table, in a build in which every row of the table exists. A word has 24
bits, numbered as R61 numbers them; one given with more is no command here (DEDUCED, log entry 16). -/
def decodeTableWord (nbits w : Nat) : Option Instr :=
  if nbits ≤ 24 then (decode true (wordOfBits nbits w)).toOption else none

end Sys2Proof
end

