-- ==== Sys2Proof/Machine/State.lean ====
section
/-! DEFINITION. The state of one KPREP instance with its host, as plain data: the build-time constants (10_state.md R25), the
caller-owned buffers (20_memory.md R40), what the host will present (R60, R146) and what the block has answered (R65, R146). -/

namespace Sys2Proof.Machine

/-- A buffer of 256 bytes as (index, byte) pairs in canonical form, `Memory.wf`. -/
structure Memory where
  cells : List Host.Cell
  deriving DecidableEq, Repr

/-- What an index without a pair reads as. It is a convention of the representation (log entry 5): every index of a buffer
holds a byte, and reset gives each a free one. -/
def unlisted : Byte := 0

/-- Indices strictly rising from `lo`, none above 255, no byte equal to what an unlisted index reads as. -/
def cellsWf : Nat → List Host.Cell → Bool
  | _, [] => true
  | lo, (a, v) :: rest => decide (lo ≤ a) && decide (a < BUF_LEN) && decide (v ≠ unlisted) && cellsWf (a + 1) rest

/-- The canonical form: equal buffers are equal data. -/
def Memory.wf (m : Memory) : Bool := cellsWf 0 m.cells

/-- The buffer that holds `f a` at each index `a`. -/
def Memory.holding (f : Nat → Byte) : Memory :=
  ⟨(List.range BUF_LEN).filterMap fun a => if f a = unlisted then none else some (a, f a)⟩

/-- The status field of a response: three codes, a fourth is never produced (30_encoding.md R65, 60_exceptions.md R120). -/
inductive Status where
  | ok
  | invalidKeyLength
  | illegalCmd
  deriving DecidableEq, Repr

/-- One response on `RSP` (30_encoding.md R65). -/
structure Response where
  status : Status
  res : Byte
  deriving DecidableEq, Repr

/-- The three causes of `InvalidKeyLength` (60_exceptions.md R121). They are for the reader: no response reports one. -/
inductive LengthCause where
  /-- (a): the master key is longer than the target key length. -/
  | masterKeyTooLong
  /-- (b): the padding needs more than the 32 bytes of the constant. -/
  | paddingTooLong
  /-- (c): fewer than the 2 bytes the recurrence needs. -/
  | workingKeyTooShort
  deriving DecidableEq, Repr

/-- What an operation can raise (00_scope.md R9, 60_exceptions.md R132). The block reports it in the response and goes on, so
it is no `Fault` of the machine. -/
inductive OpError where
  /-- Raised by PAD and MIX (R121). -/
  | invalidKeyLength (cause : LengthCause)
  /-- Raised for a word that is no command of the build (R122). -/
  | illegalCmd
  deriving DecidableEq, Repr

/-- How an operation ends (60_exceptions.md R132): `OK` with a result byte and the new contents of OBUF, or an error. -/
inductive OpResult where
  | ok (res : Byte) (obuf : Memory)
  | raised (e : OpError)
  deriving DecidableEq, Repr

/-- One instance of the block with its host. -/
structure State where
  /-- The build-time constants and ROMs; no step changes them (R25). -/
  build : Build
  /-- The caller's input buffer (R40). -/
  ibuf : Memory
  /-- The caller's output buffer (R40). -/
  obuf : Memory
  /-- What the host does next, the next line first; a command line is the word on `CMD` (R60, R146). -/
  script : List ScriptLine
  /-- The words answered on `RSP`, oldest first (R65, R146). -/
  responses : List Response
  deriving DecidableEq, Repr

/-- What stops the machine. No command does: every command word is answered (R132). -/
inductive Fault where
  /-- Raised by a host line that names an index outside a buffer, an address R40 says does not exist. Safe: the spec gives the
  host no such move. -/
  | hostIndexOutOfRange
  deriving DecidableEq, Repr

/-- No meaning for an instruction. -/
inductive Refusal where
  /-- Raised by an arm of `exec` without a meaning. Safe: the machine stops. No arm raises it. -/
  | notModelled (mnemonic : String)
  deriving DecidableEq, Repr

/-- The machine after reset (10_state.md R29, 70_reset_and_hazards.md R140): the constants at their build-time values, both
buffers unspecified (a free byte at each index), no response held, and no script yet (log entries 1, 5, 7, 8). -/
def State.reset : State where
  build := Config.build
  ibuf := Memory.holding Config.freeIbufByte
  obuf := Memory.holding Config.freeObufByte
  script := []
  responses := []

end Sys2Proof.Machine
end

