-- ==== Sys2Proof/Machine/Ops.lean ====
section
/-! DEFINITION. The primitives of the pseudocode (00_scope.md R9): reading and writing bytes of a buffer, the ends of an
operation (`return`, `done`, `raise`), and the one place where an operation's end is applied to the state (60_exceptions.md
R124). A non-OK end is no trap: nothing is saved, nothing is entered, and there is no return from it (R124, R125). -/

namespace Sys2Proof.Machine

/-- The byte at index `a` of the pairs. -/
def readCells : List Host.Cell → Nat → Byte
  | [], _ => unlisted
  | (k, v) :: rest, a => if k = a then v else readCells rest a

/-- `MemRead(space, a, 1)` (R9). -/
def Memory.read (m : Memory) (a : Nat) : Byte := readCells m.cells a

/-- The pairs with `v` at index `a` put in front of `rest`, or left out where an unlisted index reads as `v`. -/
def putCell (a : Nat) (v : Byte) (rest : List Host.Cell) : List Host.Cell :=
  if v = unlisted then rest else (a, v) :: rest

/-- The pairs after storing `v` at index `a`, in canonical form again. -/
def writeCells : List Host.Cell → Nat → Byte → List Host.Cell
  | [], a, v => putCell a v []
  | (k, w) :: rest, a, v =>
    if a < k then putCell a v ((k, w) :: rest)
    else if a = k then putCell a v rest
    else (k, w) :: writeCells rest a v

/-- `MemWrite(space, a, 1, v)` (R9). -/
def Memory.write (m : Memory) (a : Nat) (v : Byte) : Memory := ⟨writeCells m.cells a v⟩

/-- `space[a, a + n)`, index `a` first (R10). -/
def Memory.readRange (m : Memory) (a : Nat) : Nat → List Byte
  | 0 => []
  | n + 1 => m.read a :: m.readRange (a + 1) n

/-- Store the bytes at `a`, `a + 1`, ... in that order. -/
def Memory.writeRange (m : Memory) (a : Nat) : List Byte → Memory
  | [] => m
  | v :: rest => (m.write a v).writeRange (a + 1) rest

/-- A list of bytes as one number, its first byte least significant. -/
def bytesToNat : List Byte → Nat
  | [] => 0
  | v :: rest => v.toNat + 256 * bytesToNat rest

/-- The buffer on a wide bus: byte `i` has bits `[8*i+7 : 8*i]` (20_memory.md R41). -/
def Memory.toBus (m : Memory) : BitVec 2048 := BitVec.ofNat 2048 (bytesToNat (m.readRange 0 BUF_LEN))

/-- The state with another input buffer. -/
def State.setIbuf (s : State) (m : Memory) : State := { s with ibuf := m }

/-- The state with another output buffer. -/
def State.setObuf (s : State) (m : Memory) : State := { s with obuf := m }

/-- The state with other lines to come. -/
def State.setScript (s : State) (lines : List ScriptLine) : State := { s with script := lines }

/-- The state after one more response on `RSP`. -/
def State.answer (s : State) (r : Response) : State := { s with responses := s.responses ++ [r] }

/-- `return v`: end with status OK and result byte `v`; OBUF keeps its contents (R9). -/
def returnByte (v : Byte) (s : State) : OpResult := .ok v s.obuf

/-- `done`, after the operation has stored `bytes` at `OBUF[0, n)`: end with status OK and `res = 0x00` (R9). -/
def doneWith (bytes : List Byte) (s : State) : OpResult := .ok 0x00 (s.obuf.writeRange 0 bytes)

/-- `done` after storing the bytes, or `raise` with nothing stored (R9). -/
def doneOrRaise (r : Except OpError (List Byte)) (s : State) : OpResult :=
  match r with
  | .ok bytes => doneWith bytes s
  | .error e => .raised e

/-- The status that reports an error (30_encoding.md R65, 60_exceptions.md R120). -/
def OpError.status : OpError → Status
  | .invalidKeyLength _ => .invalidKeyLength
  | .illegalCmd => .illegalCmd

/-- The response an operation's end gives: `res` is 0x00 for every error (R65, R124). -/
def OpResult.response : OpResult → Response
  | .ok res _ => ⟨.ok, res⟩
  | .raised e => ⟨e.status, 0x00⟩

/-- OBUF after an operation: its new contents, or what it held before where the operation raised an error (R124). -/
def OpResult.obufAfter (r : OpResult) (before : Memory) : Memory :=
  match r with
  | .ok _ obuf => obuf
  | .raised _ => before

/-- Apply an operation's end to the state: OBUF as above, one response answered, nothing else (R20, R124, R132). -/
def State.complete (s : State) (r : OpResult) : State := (s.setObuf (r.obufAfter s.obuf)).answer r.response

/-- An operation always ends with a response, so the machine goes on (R132). -/
def finish (r : OpResult) (s : State) : Host.Outcome State Fault Refusal := .next (s.complete r)

end Sys2Proof.Machine
end

