-- ==== Sys2Proof/Machine/Operands.lean ====
section
/-! DEFINITION. The operands an operation takes from the buffers and the ROMs (30_encoding.md R62, 20_memory.md R40, R43). The
operands in the command word are the fields of `Instr`. -/

namespace Sys2Proof.Machine

/-- The master key of a PAD: `IBUF[0, L)` (R80). -/
def masterKey (s : State) (len : Byte) : List Byte := s.ibuf.readRange 0 len.toNat

/-- The padded key of a MIX: `IBUF[0, kb)` (R90). -/
def paddedKey (s : State) (kb : Byte) : List Byte := s.ibuf.readRange 0 kb.toNat

/-- `PAD_CONST[idx]` from `PAD_ROM` (R40). -/
def padRom (b : Build) (idx : BitVec 5) : Byte := b.padConst[idx.toNat]'idx.isLt

/-- `PAD_CONST[0, n)` from `PAD_ROM` (R40), for `n` at most 32. -/
def filler (b : Build) (n : Nat) : List Byte := b.padConst.toList.take n

/-- `SBOX_TABLE[idx]` from `SBOX_ROM` (R40). -/
def sboxRom (table : Vector Byte SBOX_LEN) (idx : Byte) : Byte := table[idx.toNat]'idx.isLt

end Sys2Proof.Machine
end

