-- ==== Sys2Proof/Machine/DiffusionMixer.lean ====
section
/-! DEFINITION. The Diffusion Mixer: MIX (41_diffusion_mixer.md). -/

namespace Sys2Proof.Machine

/-- The loop of R90 from index 2 on: `p1` is the previous output byte, `p2` the one before. -/
def mixLoop (p2 p1 : Byte) : List Byte → List Byte
  | [] => []
  | x :: rest => (x ^^^ (p1 + p2)) :: mixLoop p1 (x ^^^ (p1 + p2)) rest

/-- The first output byte of R90. -/
def mixFirst (x0 : Byte) : Byte := x0 ^^^ (C1 + C2)

/-- The second output byte of R90, from the first. -/
def mixSecond (o0 x1 : Byte) : Byte := x1 ^^^ (o0 + C1)

/-- `mix(paddedKey)` (00_scope.md R3, R90); a key of fewer than two bytes is rejected. -/
def mixKey : List Byte → Except OpError (List Byte)
  | x0 :: x1 :: rest =>
    .ok (mixFirst x0 :: mixSecond (mixFirst x0) x1 :: mixLoop (mixFirst x0) (mixSecond (mixFirst x0) x1) rest)
  | _ => .error (.invalidKeyLength .workingKeyTooShort)

/-- MIX (R90). -/
def execMix (kb : Byte) (s : State) : Host.Outcome State Fault Refusal :=
  finish (doneOrRaise (mixKey (paddedKey s kb)) s) s

end Sys2Proof.Machine
end

