-- ==== Sys2Proof/Machine/FieldAlgebra.lean ====
section
/-! DEFINITION. The GF(2^8) unit: AMUL and ADIV (42_gf_alpha.md), for an arbitrary reduction polynomial. -/

namespace Sys2Proof.Machine

/-- `alphaMul(x)` (R101): double in nine bits, reduce if `x[7]` was set, keep eight bits. -/
def alphaMul (poly : Poly9) (x : Byte) : Byte :=
  let w : BitVec 9 := x.setWidth 9 <<< 1
  (if x.getLsbD 7 then w ^^^ poly else w).setWidth 8

/-- `alphaDiv(x)` (R102): widen to nine bits, XOR the polynomial in if `x[0]` is set, shift right, keep eight bits. -/
def alphaDiv (poly : Poly9) (x : Byte) : Byte :=
  let w : BitVec 9 := x.setWidth 9
  ((if x.getLsbD 0 then w ^^^ poly else w) >>> 1).setWidth 8

/-- AMUL (R101). -/
def execAmul (x : Byte) (s : State) : Host.Outcome State Fault Refusal :=
  finish (returnByte (alphaMul s.build.irredPoly x) s) s

/-- ADIV (R102). -/
def execAdiv (x : Byte) (s : State) : Host.Outcome State Fault Refusal :=
  finish (returnByte (alphaDiv s.build.irredPoly x) s) s

end Sys2Proof.Machine
end

