-- ==== Sys2Proof/Machine/KeyPadder.lean ====
section
/-! DEFINITION. The Key Padder: PAD and PADC (40_key_padder.md). -/

namespace Sys2Proof.Machine

/-- `pad(masterKey, keyBytes)` (00_scope.md R3, R80): the master key, then the first `keyBytes - L` bytes of the constant, where
`L` is the master key's length; both checks come first (R123). -/
def padKey (b : Build) (key : List Byte) (keyBytes : Nat) : Except OpError (List Byte) :=
  if keyBytes < key.length then .error (.invalidKeyLength .masterKeyTooLong)
  else if PAD_LEN < keyBytes - key.length then .error (.invalidKeyLength .paddingTooLong)
  else .ok (key ++ filler b (keyBytes - key.length))

/-- PAD (R80). -/
def execPad (len kb : Byte) (s : State) : Host.Outcome State Fault Refusal :=
  finish (doneOrRaise (padKey s.build (masterKey s len) kb.toNat) s) s

/-- PADC (R81). -/
def execPadc (idx : BitVec 5) (s : State) : Host.Outcome State Fault Refusal :=
  finish (returnByte (padRom s.build idx) s) s

end Sys2Proof.Machine
end

