-- ==== Sys2Proof/Machine/SubstitutionTable.lean ====
section
/-! DEFINITION. The Substitution Table ROM: SBOX (43_substitution_table.md). -/

namespace Sys2Proof.Machine

/-- SBOX (R115). In a build without the table the word is no command and ends with ILLEGAL_CMD (30_encoding.md R64). -/
def execSbox (idx : Byte) (s : State) : Host.Outcome State Fault Refusal :=
  finish
    (match s.build.sbox with
      | some table => returnByte (sboxRom table idx) s
      | none => .raised .illegalCmd)
    s

end Sys2Proof.Machine
end

