-- ==== Sys2Proof/Machine/Dispatch.lean ====
section
/-! DEFINITION. One arm per command: the meaning it calls. -/

namespace Sys2Proof.Machine

def exec (i : Instr) (s : State) : Host.Outcome State Fault Refusal :=
  match i with
  | .pad len kb => Sys2Proof.Machine.execPad len kb s
  | .padc idx => Sys2Proof.Machine.execPadc idx s
  | .mix kb => Sys2Proof.Machine.execMix kb s
  | .amul x => Sys2Proof.Machine.execAmul x s
  | .adiv x => Sys2Proof.Machine.execAdiv x s
  | .sbox idx => Sys2Proof.Machine.execSbox idx s

end Sys2Proof.Machine
end

