-- ==== Sys2Proof/Machine/Transaction.lean ====
section
/-! DEFINITION. One line of the host's script: a command word on `CMD` (30_encoding.md R60), or an action of the host between
two commands (R67, 70_reset_and_hazards.md R140, R147). -/

namespace Sys2Proof.Machine

/-- A transaction (R60): decode first (60_exceptions.md R123), then run the command; a word that is no command of the opcode map
ends with ILLEGAL_CMD (R122). Whether the build has the table is decided in SBOX's meaning (log entry 9). -/
def runCommand (w : CmdWord) (s : State) : Host.Outcome State Fault Refusal :=
  match decode true w with
  | .ok i => exec i s
  | .error _ => finish (.raised .illegalCmd) s

/-- A host action that stays within the buffers. -/
def withinBuffers (line : ScriptLine) (after : State) : Host.Outcome State Fault Refusal :=
  if line.wellFormed then .next after else .fault .hostIndexOutOfRange

/-- One line of a script. A reset asserted in a run touches nothing (R140; DEDUCED, log entry 14). -/
def runLine (line : ScriptLine) (s : State) : Host.Outcome State Fault Refusal :=
  match line with
  | .command w => runCommand w s
  | .storeIbuf m bytes => withinBuffers line (s.setIbuf (s.ibuf.writeRange m bytes))
  | .storeObuf m bytes => withinBuffers line (s.setObuf (s.obuf.writeRange m bytes))
  | .copyObufToIbuf n => withinBuffers line (s.setIbuf (s.ibuf.writeRange 0 (s.obuf.readRange 0 n)))
  | .assertReset => withinBuffers line s

/-- The state before the next line `line` of its script, with that line put first. -/
def State.pushLine (s : State) (line : ScriptLine) : State := s.setScript (line :: s.script)

end Sys2Proof.Machine
end

