-- ==== Sys2Proof/Machine/Step.lean ====
section
/-! DEFINITION. The step: the host's next line, taken off the script, is carried out (20_memory.md R47, 70_reset_and_hazards.md
R146). -/

namespace Sys2Proof.Machine

/-- One step. Where the host does nothing more, the block does nothing (R147, log entry 10). -/
def step (s : State) : Host.Outcome State Fault Refusal :=
  match s.script with
  | [] => .next s
  | line :: rest => runLine line (s.setScript rest)

/-- The state in which the host presents that word on `CMD` next, before whatever it does later. `CMD` has 24 bits
(30_encoding.md R60, R66) and the spec says nothing of a wider word: one given with more than 24 bits is cut to its low 24 bits and
presented as that word, though `decodeTableWord` reads no command from it (DESIGN CHOICE, log entry 18). -/
def State.withFetchWord (s : State) (nbits w : Nat) : State := s.pushLine (.command (wordOfBits nbits w))

end Sys2Proof.Machine
end

