-- ==== Sys2Proof/Machine/Flags.lean ====
section
/-! DEFINITION. KPREP has no flags (10_state.md R23). The one status it computes is that of the response word, whose layout
(30_encoding.md R65) stands here. -/

namespace Sys2Proof.Machine

/-- The code of `RSP[9:8]` (R65, 60_exceptions.md R120). -/
def Status.code : Status → BitVec 2
  | .ok => 0
  | .invalidKeyLength => 1
  | .illegalCmd => 2

/-- The word on `RSP`: status in bits 9:8, result byte in bits 7:0 (R65). -/
def Response.toWord (r : Response) : RspWord := (r.status.code ++ r.res : BitVec 10)

end Sys2Proof.Machine
end

