-- ==== Sys2Proof/Safety.lean ====
section
/-! DEFINITION. The terms the claims use: the invariant of the machine, a safe script, the spec's derived forms of MIX, AMUL and
ADIV, and the operands a command reads. -/

namespace Sys2Proof

/-- The line is a command word. -/
def ScriptLine.isCommand : ScriptLine → Bool
  | .command _ => true
  | .storeIbuf _ _ => false
  | .storeObuf _ _ => false
  | .copyObufToIbuf _ => false
  | .assertReset => false

end Sys2Proof

namespace Sys2Proof.Machine

/-- What holds at reset and after every step: the build is admissible (00_scope.md R5), the buffers are in canonical form, and no
response that reports an error carries a result byte (30_encoding.md R65). -/
abbrev State.Inv (s : State) : Prop :=
  s.build.WellFormed ∧ s.ibuf.wf = true ∧ s.obuf.wf = true ∧ ∀ r ∈ s.responses, r.status ≠ .ok → r.res = 0x00

/-- The host's script names only indices that exist. -/
def State.scriptOk (s : State) : Bool := s.script.all ScriptLine.wellFormed

/-- The number of command words among the lines. -/
def commandCount (lines : List ScriptLine) : Nat := lines.countP ScriptLine.isCommand

/-- The legal operands of PAD (40_key_padder.md R84). -/
abbrev padLegal (len kb : Byte) : Prop := len.toNat ≤ kb.toNat ∧ kb.toNat - len.toNat ≤ PAD_LEN

/-- How many bytes of IBUF a command reads, from index 0 (20_memory.md R43). -/
def ibufBytesRead : Instr → Nat
  | .pad len _ => len.toNat
  | .padc _ => 0
  | .mix kb => kb.toNat
  | .amul _ => 0
  | .adiv _ => 0
  | .sbox _ => 0

/-- How many bytes of OBUF a command stores where it ends with OK, from index 0 (20_memory.md R43). -/
def obufBytesStored : Instr → Nat
  | .pad _ kb => kb.toNat
  | .padc _ => 0
  | .mix kb => kb.toNat
  | .amul _ => 0
  | .adiv _ => 0
  | .sbox _ => 0

/-- Two builds agree on the constants a command reads (10_state.md R25, column "read by"; HAS_SBOX is read by SBOX's decoding). -/
def sameConstantsFor (b₁ b₂ : Build) : Instr → Prop
  | .pad _ _ => b₁.padConst = b₂.padConst
  | .padc _ => b₁.padConst = b₂.padConst
  | .mix _ => True
  | .amul _ => b₁.irredPoly = b₂.irredPoly
  | .adiv _ => b₁.irredPoly = b₂.irredPoly
  | .sbox _ => b₁.sbox = b₂.sbox

/-- R64's list, on the three fields of the word as numbers. -/
abbrev listedFields (hasSbox : Bool) (op a b : Nat) : Prop :=
  op = 0 ∨ 7 ≤ op ∨ (op = 2 ∧ (32 ≤ a ∨ b ≠ 0)) ∨ (op = 3 ∧ a ≠ 0) ∨ ((op = 4 ∨ op = 5 ∨ op = 6) ∧ b ≠ 0) ∨
    (op = 6 ∧ hasSbox = false)

/-- The words R64 lists as illegal, in its order. -/
abbrev listedIllegal (hasSbox : Bool) (w : CmdWord) : Prop :=
  listedFields hasSbox (w.extractLsb' 16 8).toNat (w.extractLsb' 8 8).toNat (w.extractLsb' 0 8).toNat

/-- `PLO = IRRED_POLY[7:0]` (42_gf_alpha.md R106). -/
def polyLow (p : Poly9) : Byte := p.extractLsb' 0 8

/-- `PHI = IRRED_POLY[8:1]` (42_gf_alpha.md R106). -/
def polyHigh (p : Poly9) : Byte := p.extractLsb' 1 8

/-- The input that MIX maps to the given output, where `p1` and `p2` are the two bytes before it (41_diffusion_mixer.md R93). -/
def unmixFrom (p2 p1 : Byte) : List Byte → List Byte
  | [] => []
  | o :: rest => (o ^^^ (p1 + p2)) :: unmixFrom p1 o rest

/-- The output byte at index `i - k` of a mixed buffer, with the seeds at the indices -1 and -2 (41_diffusion_mixer.md R91). -/
def outputBefore (m : Memory) (i k : Nat) : Byte := if k ≤ i then m.read (i - k) else if i + 1 = k then C1 else C2

/-- The byte-serial mixer of 41_diffusion_mixer.md R94: two byte registers and the output buffer. -/
structure SerialMixer where
  s1 : Byte
  s2 : Byte
  obuf : Memory
  deriving DecidableEq, Repr

/-- One byte of the byte-serial mixer (R94); both registers change at once. -/
def SerialMixer.tick (ibuf : Memory) (i : Nat) (m : SerialMixer) : SerialMixer :=
  let y := ibuf.read i ^^^ (m.s1 + m.s2)
  ⟨y, m.s1, m.obuf.write i y⟩

/-- The byte-serial mixer over the indices `i`, `i + 1`, ... for `n` bytes. -/
def SerialMixer.run (ibuf : Memory) (i : Nat) : Nat → SerialMixer → SerialMixer
  | 0, m => m
  | n + 1, m => SerialMixer.run ibuf (i + 1) n (m.tick ibuf i)

end Sys2Proof.Machine
end

