-- ==== Sys2Proof/Certificates/Slice0/Obligations.lean ====
section
/-! DEFINITION. The statements for the provers. Each docstring names the rule of spec/ it formalises. A premise `wf` or
`WellFormed` is a part of `State.Inv`, which `StepKeepsInvariant` shows of every step and `ResetMeetsInvariant` of reset. -/

open Sys2Proof Sys2Proof.Machine

/-! ### Encoding -/

/-- 30_encoding.md R63, R64 on words written out from the patterns (95_test_vectors.md P1, P19, M2, G5, G8, X1, X4, E1, E4). -/
def Obligations.SampleWordsDecode : Prop :=
  decode true 0x010508 = .ok (.pad 5 8) ∧ decode true 0x021F00 = .ok (.padc 31) ∧
  decode true 0x030004 = .ok (.mix 4) ∧ decode true 0x048000 = .ok (.amul 0x80) ∧
  decode true 0x050200 = .ok (.adiv 2) ∧ decode true 0x060500 = .ok (.sbox 5) ∧
  decode false 0x060500 = .error .tableAbsent ∧ decode true 0x000000 = .error .unassignedOpcode ∧
  decode true 0x022000 = .error .mustBeZero

/-- Every command that exists in a build is read back from its word, with every operand (R63, R67, R68). -/
def Obligations.DecodeInvertsEncode : Prop :=
  ∀ (hasSbox : Bool) (i : Instr), i.wellFormed hasSbox = true → decode hasSbox (encode i) = .ok i

/-- A word that decodes is the word of the command it decodes to, and that command exists in the build: each command has one
word (R63, R67, R68). -/
def Obligations.EncodeInvertsDecode : Prop :=
  ∀ (hasSbox : Bool) (w : CmdWord) (i : Instr), decode hasSbox w = .ok i → encode i = w ∧ i.wellFormed hasSbox = true

/-- R63: a word is the command of a row when `(w AND mask) = match`; no two rows overlap. -/
def Obligations.OpcodeRowsSelectTheCommand : Prop :=
  opcodeRows = [⟨0xFF0000, 0x010000⟩, ⟨0xFFE0FF, 0x020000⟩, ⟨0xFFFF00, 0x030000⟩,
    ⟨0xFF00FF, 0x040000⟩, ⟨0xFF00FF, 0x050000⟩, ⟨0xFF00FF, 0x060000⟩] ∧
  (∀ (w : CmdWord) (i : Instr), decode true w = .ok i → i.row.selects w = true) ∧
  (∀ (w : CmdWord), ∀ r ∈ opcodeRows, r.selects w = true → ∃ i, decode true w = .ok i ∧ i.row = r) ∧
  (∀ (w : CmdWord), ∀ r₁ ∈ opcodeRows, ∀ r₂ ∈ opcodeRows, r₁.selects w = true → r₂.selects w = true → r₁ = r₂)

/-- R64: the words that are no command are exactly the listed ones, and each ends with ILLEGAL_CMD, reading and writing nothing;
every other word decodes. A PAD or MIX word with operands the source forbids decodes, and ends with INVALID_KEY_LENGTH. -/
def Obligations.IllegalWordsAreExactlyTheListed : Prop :=
  (∀ (hasSbox : Bool) (w : CmdWord), listedIllegal hasSbox w ↔ ∃ e, decode hasSbox w = .error e) ∧
  (∀ (s : State) (w : CmdWord) (rest : List ScriptLine), s.script = .command w :: rest → listedIllegal s.build.hasSbox w →
    step s = .next ((s.setScript rest).answer ⟨.illegalCmd, 0x00⟩)) ∧
  (∀ (s : State) (len kb : Byte) (rest : List ScriptLine), s.script = .command (assemble 0x01 len kb) :: rest →
    ¬ padLegal len kb → step s = .next ((s.setScript rest).answer ⟨.invalidKeyLength, 0x00⟩)) ∧
  (∀ (s : State) (kb : Byte) (rest : List ScriptLine), s.script = .command (assemble 0x03 0x00 kb) :: rest →
    kb.toNat < 2 → step s = .next ((s.setScript rest).answer ⟨.invalidKeyLength, 0x00⟩))

/-! ### The step -/

/-- A step runs the decoded command: where the next line is a word that R68 decodes, in this build, to `i`, the step takes that
line off the script and is `exec i`. -/
def Obligations.StepRunsTheDecodedCommand : Prop :=
  ∀ (s : State) (w : CmdWord) (rest : List ScriptLine) (i : Instr), s.script = .command w :: rest →
    decode s.build.hasSbox w = .ok i → step s = exec i (s.setScript rest)

/-- A word presented with `withFetchWord` runs next, and what the host had planned stays behind it. -/
def Obligations.PresentedWordRunsNext : Prop :=
  ∀ (s : State) (i : Instr), i.wellFormed s.build.hasSbox = true →
    step (s.withFetchWord 24 (encode i).toNat) = exec i s

/-- 60_exceptions.md R120, R132: every command word is answered with exactly one response, and the machine goes on. IBUF and the
constants are never written (20_memory.md R40, 10_state.md R25). -/
def Obligations.EveryCommandWordIsAnswered : Prop :=
  ∀ (s : State) (w : CmdWord) (rest : List ScriptLine), s.script = .command w :: rest →
    ∃ (t : State) (r : Response), step s = .next t ∧ t.responses = s.responses ++ [r] ∧ t.script = rest ∧
      t.ibuf = s.ibuf ∧ t.build = s.build

/-- 60_exceptions.md R124: a non-OK command writes no byte of OBUF, answers `{status, 0x00}`, saves and latches nothing, and the
next command runs as if it had not been issued. -/
def Obligations.FailingCommandLeavesNoTrace : Prop :=
  ∀ (s t : State) (w : CmdWord) (rest : List ScriptLine) (r : Response), s.script = .command w :: rest → step s = .next t →
    t.responses = s.responses ++ [r] → r.status ≠ .ok →
    r.res = 0x00 ∧ t = (s.setScript rest).answer r ∧
    ∀ (w' : CmdWord) (rest' : List ScriptLine), rest = .command w' :: rest' →
      ∃ (u u' : State) (r' : Response), step t = .next u ∧ step (s.setScript rest) = .next u' ∧ u.obuf = u'.obuf ∧
        u.responses = t.responses ++ [r'] ∧ u'.responses = s.responses ++ [r']

/-- 70_reset_and_hazards.md R147, "between commands": where the host does nothing more, the block does nothing. That this idle
state is a step to itself is the model's choice (log entry 10). -/
def Obligations.IdleBlockTouchesNothing : Prop :=
  ∀ (s : State), s.script = [] → step s = .next s

/-- No step is refused, and only a host line outside the buffers ends in a fault: no command does (60_exceptions.md R132). The
fault is the model's choice (log entry 11). -/
def Obligations.OnlyHostLinesOutsideTheBuffersFault : Prop :=
  (∀ (s : State) (r : Refusal), step s ≠ .refused r) ∧
  (∀ (s : State), (∃ f, step s = .fault f) ↔ ∃ line rest, s.script = line :: rest ∧ line.wellFormed = false)

/-- 70_reset_and_hazards.md R146, R145, R143: a run of a script ends with the response to its last command, and every command
of it has been answered, in order after what was answered before. -/
def Obligations.EveryScriptRunsToItsEnd : Prop :=
  ∀ (s : State), s.scriptOk = true →
    ∃ (t : State) (answers : List Response), core.run s.script.length s = .next t ∧ t.script = [] ∧ t.build = s.build ∧
      t.responses = s.responses ++ answers ∧ answers.length = commandCount s.script

/-! ### The response -/

/-- 30_encoding.md R65: status in bits 9:8 with the codes 0, 1, 2 and never 3, result byte in bits 7:0; `res` is 0x00 for PAD
and MIX and whenever the status is not OK. -/
def Obligations.ResponseWordLayout : Prop :=
  (∀ r : Response, (r.toWord.extractLsb' 8 2).toNat =
      (match r.status with | .ok => 0 | .invalidKeyLength => 1 | .illegalCmd => 2) ∧
    r.toWord.extractLsb' 0 8 = r.res ∧ r.toWord.extractLsb' 8 2 ≠ 3) ∧
  (∀ (i : Instr) (s : State), ∃ (t : State) (r : Response), exec i s = .next t ∧ t.responses = s.responses ++ [r] ∧
    (r.status ≠ .ok → r.res = 0x00) ∧
    ((∃ len kb, i = .pad len kb) ∨ (∃ kb, i = .mix kb) → r.res = 0x00))

/-- 60_exceptions.md R121: INVALID_KEY_LENGTH exactly for PAD with `L > kb` (a), PAD with `L <= kb` and `kb - L > 32` (b) and MIX
with `kb < 2` (c); no other command can raise it. -/
def Obligations.InvalidKeyLengthExactlyForItsThreeCauses : Prop :=
  ∀ (i : Instr) (s : State), ∃ (t : State) (r : Response), exec i s = .next t ∧ t.responses = s.responses ++ [r] ∧
    (r.status = .invalidKeyLength ↔
      match i with
      | .pad len kb => kb.toNat < len.toNat ∨ (len.toNat ≤ kb.toNat ∧ 32 < kb.toNat - len.toNat)
      | .mix kb => kb.toNat < 2
      | .padc _ => False
      | .amul _ => False
      | .adiv _ => False
      | .sbox _ => False)

/-! ### What a command reads and writes -/

/-- 10_state.md R30, 20_memory.md R43: a command's response and its effect on OBUF depend on nothing but its word, the constants
and the bytes of IBUF that R43 lists for it: not on earlier responses, not on what the host does later, not on other bytes. -/
def Obligations.CommandsReadOnlyTheirOperands : Prop :=
  ∀ (i : Instr) (s₁ s₂ : State), s₁.build = s₂.build → s₁.obuf = s₂.obuf →
    (∀ a < ibufBytesRead i, s₁.ibuf.read a = s₂.ibuf.read a) →
    ∃ (t₁ t₂ : State) (r : Response), exec i s₁ = .next t₁ ∧ exec i s₂ = .next t₂ ∧ t₁.obuf = t₂.obuf ∧
      t₁.responses = s₁.responses ++ [r] ∧ t₂.responses = s₂.responses ++ [r]

/-- 10_state.md R25, column "read by": IRRED_POLY is read by AMUL and ADIV only, PAD_CONST by PAD and PADC only, the table by SBOX
only, and MIX reads none; so the table's presence changes no other command (43_substitution_table.md R117, R118). -/
def Obligations.UnitsReadOnlyTheirOwnConstants : Prop :=
  ∀ (i : Instr) (s : State) (b : Build), sameConstantsFor s.build b i →
    ∃ (t t' : State) (r : Response), exec i s = .next t ∧ exec i { s with build := b } = .next t' ∧ t.obuf = t'.obuf ∧
      t.responses = s.responses ++ [r] ∧ t'.responses = s.responses ++ [r]

/-- 20_memory.md R43: every operation is idempotent. -/
def Obligations.CommandsAreIdempotent : Prop :=
  ∀ (i : Instr) (s : State), s.obuf.wf = true →
    ∃ (t : State) (r : Response), exec i s = .next t ∧ t.responses = s.responses ++ [r] ∧ exec i t = .next (t.answer r)

/-- The frame of PADC, AMUL, ADIV and SBOX (20_memory.md R43): neither buffer, no constant and nothing of the script changes; one
response is added. -/
def Obligations.ValueCommandsTouchNoBuffer : Prop :=
  ∀ (i : Instr) (s t : State), obufBytesStored i = 0 → ibufBytesRead i = 0 → exec i s = .next t →
    t.build = s.build ∧ t.script = s.script ∧ (∀ a, t.ibuf.read a = s.ibuf.read a) ∧ (∀ a, t.obuf.read a = s.obuf.read a) ∧
    ∃ r, t.responses = s.responses ++ [r]

/-- The frame of PAD and MIX (20_memory.md R43): on every end, OBUF at `kb` and above, IBUF, the constants and the script are
unchanged, and one response is added. -/
def Obligations.BufferCommandsStoreOnlyTheirRange : Prop :=
  ∀ (i : Instr) (s t : State), s.obuf.wf = true → ((∃ len kb, i = .pad len kb) ∨ (∃ kb, i = .mix kb)) → exec i s = .next t →
    t.build = s.build ∧ t.script = s.script ∧ (∀ a, t.ibuf.read a = s.ibuf.read a) ∧
    (∀ a, obufBytesStored i ≤ a → t.obuf.read a = s.obuf.read a) ∧ ∃ r, t.responses = s.responses ++ [r]

/-! ### Key Padder -/

/-- 40_key_padder.md R80, R82, R83: the three ends of PAD. -/
def Obligations.PadPadsTheMasterKey : Prop :=
  ∀ (len kb : Byte) (s : State), s.obuf.wf = true →
    (kb.toNat < len.toNat → exec (.pad len kb) s = .next (s.answer ⟨.invalidKeyLength, 0x00⟩)) ∧
    (len.toNat ≤ kb.toNat → 32 < kb.toNat - len.toNat →
      exec (.pad len kb) s = .next (s.answer ⟨.invalidKeyLength, 0x00⟩)) ∧
    (len.toNat ≤ kb.toNat → kb.toNat - len.toNat ≤ 32 →
      ∃ m : Memory, exec (.pad len kb) s = .next ((s.setObuf m).answer ⟨.ok, 0x00⟩) ∧
        (∀ i, i < len.toNat → m.read i = s.ibuf.read i) ∧
        (∀ j (hj : j < 32), j < kb.toNat - len.toNat → m.read (len.toNat + j) = s.build.padConst[j]) ∧
        (∀ a, kb.toNat ≤ a → m.read a = s.obuf.read a))

/-- 40_key_padder.md R81: PADC returns the byte of the constant at its index. -/
def Obligations.PadcReturnsTheConstantByte : Prop :=
  ∀ (idx : BitVec 5) (s : State) (h : idx.toNat < 32),
    exec (.padc idx) s = .next (s.answer ⟨.ok, s.build.padConst[idx.toNat]⟩)

/-- 40_key_padder.md R81: "for every legal PAD the filler byte at `OBUF[L + j]` equals the result of `PADC j`". -/
def Obligations.PadFillerIsWhatPadcReturns : Prop :=
  ∀ (len kb : Byte) (idx : BitVec 5) (s : State), s.obuf.wf = true → padLegal len kb → idx.toNat < kb.toNat - len.toNat →
    ∃ t : State, exec (.pad len kb) s = .next t ∧
      exec (.padc idx) s = .next (s.answer ⟨.ok, t.obuf.read (len.toNat + idx.toNat)⟩)

/-! ### Diffusion Mixer -/

/-- 41_diffusion_mixer.md R90, R91: each output byte from the two output bytes before it, with the seeds at the indices -1 and
-2, for `kb >= 2`; rejected for `kb < 2`. -/
def Obligations.MixFollowsTheRecurrence : Prop :=
  ∀ (kb : Byte) (s : State), s.obuf.wf = true →
    (kb.toNat < 2 → exec (.mix kb) s = .next (s.answer ⟨.invalidKeyLength, 0x00⟩)) ∧
    (2 ≤ kb.toNat →
      ∃ m : Memory, exec (.mix kb) s = .next ((s.setObuf m).answer ⟨.ok, 0x00⟩) ∧
        m.read 0 = s.ibuf.read 0 ^^^ (0x76 + 0x6a) ∧ m.read 1 = s.ibuf.read 1 ^^^ (m.read 0 + 0x76) ∧
        (∀ i, 2 ≤ i → i < kb.toNat → m.read i = s.ibuf.read i ^^^ (m.read (i - 1) + m.read (i - 2))) ∧
        (∀ i, i < kb.toNat → m.read i = s.ibuf.read i ^^^ (outputBefore m i 1 + outputBefore m i 2)) ∧
        (∀ a, kb.toNat ≤ a → m.read a = s.obuf.read a))

/-- 95_test_vectors.md S1, the source's own scenario. -/
def Obligations.MixOfFourZeroBytes : Prop :=
  ∀ (s : State), s.obuf.wf = true → (∀ a < 4, s.ibuf.read a = 0x00) →
    ∃ t : State, exec (.mix 4) s = .next t ∧ t.obuf.readRange 0 4 = [0xE0, 0x56, 0x36, 0x8C]

/-- 41_diffusion_mixer.md R92: an output byte depends only on input bytes at its index and below; changing an input byte changes
the output byte at its index and none below; MIX of fewer bytes is the beginning of MIX of more. -/
def Obligations.MixIsCausal : Prop :=
  (∀ (kb : Byte) (s₁ s₂ : State) (j : Nat), s₁.obuf.wf = true → s₂.obuf.wf = true → 2 ≤ kb.toNat → j < kb.toNat →
    (∀ a < j, s₁.ibuf.read a = s₂.ibuf.read a) →
    ∃ t₁ t₂ : State, exec (.mix kb) s₁ = .next t₁ ∧ exec (.mix kb) s₂ = .next t₂ ∧
      (∀ a < j, t₁.obuf.read a = t₂.obuf.read a) ∧
      (t₁.obuf.read j = t₂.obuf.read j ↔ s₁.ibuf.read j = s₂.ibuf.read j)) ∧
  (∀ (m kb : Byte) (s : State), s.obuf.wf = true → 2 ≤ m.toNat → m.toNat ≤ kb.toNat →
    ∃ t u : State, exec (.mix m) s = .next t ∧ exec (.mix kb) s = .next u ∧
      ∀ a < m.toNat, t.obuf.read a = u.obuf.read a)

/-- 41_diffusion_mixer.md R93: for each length of at least two bytes the mixing is a bijection, undone by
`x[i] = o[i] XOR ((o[i-1] + o[i-2]) mod 256)` with the seeds in front. -/
def Obligations.MixIsInvertible : Prop :=
  (∀ out : List Byte, 2 ≤ out.length → mixKey (unmixFrom C2 C1 out) = .ok out) ∧
  (∀ key : List Byte, 2 ≤ key.length →
    ∃ out, mixKey key = .ok out ∧ out.length = key.length ∧ unmixFrom C2 C1 out = key)

/-- 41_diffusion_mixer.md R94: the byte-serial realisation with two byte registers computes MIX. -/
def Obligations.ByteSerialMixerComputesMix : Prop :=
  ∀ (kb : Byte) (s : State), 2 ≤ kb.toNat →
    exec (.mix kb) s =
      .next ((s.setObuf (SerialMixer.run s.ibuf 0 kb.toNat ⟨0x76, 0x6a, s.obuf⟩).obuf).answer ⟨.ok, 0x00⟩)

/-! ### GF(2^8) unit -/

/-- 42_gf_alpha.md R101: doubling in nine bits, reduced by XOR with IRRED_POLY where bit 7 was set, cut to eight bits. -/
def Obligations.AmulDoublesAndReduces : Prop :=
  ∀ (x : Byte) (s : State), ∃ y : Byte, exec (.amul x) s = .next (s.answer ⟨.ok, y⟩) ∧
    y.toNat = if 128 ≤ x.toNat then ((2 * x.toNat) ^^^ s.build.irredPoly.toNat) % 256 else 2 * x.toNat

/-- 42_gf_alpha.md R102: an odd byte is XORed, widened, with IRRED_POLY; then the value is halved. -/
def Obligations.AdivReducesAndHalves : Prop :=
  ∀ (x : Byte) (s : State), ∃ y : Byte, exec (.adiv x) s = .next (s.answer ⟨.ok, y⟩) ∧
    y.toNat = if x.toNat % 2 = 1 then (x.toNat ^^^ s.build.irredPoly.toNat) / 2 else x.toNat / 2

/-- 42_gf_alpha.md R106: the closed forms, with `PLO = IRRED_POLY[7:0]` and `PHI = IRRED_POLY[8:1]`. -/
def Obligations.AmulAdivClosedForms : Prop :=
  ∀ (x : Byte) (s : State), s.build.irredPoly.endsSet = true →
    exec (.amul x) s =
      .next (s.answer ⟨.ok, (x <<< 1) ^^^ (if x.getLsbD 7 then polyLow s.build.irredPoly else 0x00)⟩) ∧
    exec (.adiv x) s =
      .next (s.answer ⟨.ok, (x >>> 1) ^^^ (if x.getLsbD 0 then polyHigh s.build.irredPoly else 0x00)⟩) ∧
    (polyLow s.build.irredPoly).getLsbD 0 = true ∧ 0x80 ≤ (polyHigh s.build.irredPoly).toNat

/-- 42_gf_alpha.md R103: dividing the product gives the byte back, and multiplying the quotient too. -/
def Obligations.AmulAndAdivUndoEachOther : Prop :=
  ∀ (x : Byte) (s : State), s.build.irredPoly.endsSet = true →
    (∃ y : Byte, exec (.amul x) s = .next (s.answer ⟨.ok, y⟩) ∧ exec (.adiv y) s = .next (s.answer ⟨.ok, x⟩)) ∧
    (∃ y : Byte, exec (.adiv x) s = .next (s.answer ⟨.ok, y⟩) ∧ exec (.amul y) s = .next (s.answer ⟨.ok, x⟩))

/-- 42_gf_alpha.md R104: the round trip holds for all bytes exactly when bits 8 and 0 of the polynomial are set; every listed
irreducible polynomial has both. -/
def Obligations.RoundTripNeedsBothEndBits : Prop :=
  (∀ p : Poly9, (∀ x : Byte, alphaDiv p (alphaMul p x) = x ∧ alphaMul p (alphaDiv p x) = x) ↔ p.endsSet = true) ∧
  (∀ p ∈ irreduciblePolys.toList, Poly9.endsSet p = true)

/-- 42_gf_alpha.md R105: both maps are linear over XOR and map zero to zero, for every value of the polynomial. -/
def Obligations.AlphaMapsAreLinear : Prop :=
  ∀ (p : Poly9) (x y : Byte),
    alphaMul p (x ^^^ y) = alphaMul p x ^^^ alphaMul p y ∧ alphaMul p 0x00 = 0x00 ∧
    alphaDiv p (x ^^^ y) = alphaDiv p x ^^^ alphaDiv p y ∧ alphaDiv p 0x00 = 0x00

/-- The polynomial over GF(2) whose coefficient of `X^k` is bit `k` (42_gf_alpha.md R100). -/
noncomputable def Sys2Proof.Machine.polyOf {n : Nat} (v : BitVec n) : Polynomial (ZMod 2) :=
  ∑ k ∈ Finset.range n, if v.getLsbD k then Polynomial.X ^ k else 0

/-- 42_gf_alpha.md R107: in GF(2)[X] / (IRRED_POLY), AMUL's result is `x * alpha` and ADIV's result is the element whose product
with alpha is `x`, alpha being the class of `X`. -/
def Obligations.AmulIsTheProductWithAlpha : Prop :=
  ∀ (p : Poly9) (x : Byte), p.endsSet = true →
    AdjoinRoot.mk (polyOf p) (polyOf (alphaMul p x)) = AdjoinRoot.root (polyOf p) * AdjoinRoot.mk (polyOf p) (polyOf x) ∧
    AdjoinRoot.root (polyOf p) * AdjoinRoot.mk (polyOf p) (polyOf (alphaDiv p x)) = AdjoinRoot.mk (polyOf p) (polyOf x)

/-! ### Substitution Table -/

/-- 43_substitution_table.md R115: with the table, SBOX returns its entry; without it, the word ends with ILLEGAL_CMD. -/
def Obligations.SboxReturnsItsEntry : Prop :=
  ∀ (idx : Byte) (s : State) (h : idx.toNat < 256),
    (∀ table, s.build.sbox = some table → exec (.sbox idx) s = .next (s.answer ⟨.ok, table[idx.toNat]⟩)) ∧
    (s.build.sbox = none → exec (.sbox idx) s = .next (s.answer ⟨.illegalCmd, 0x00⟩))

/-- 43_substitution_table.md R116: in an admissible build with the table, every byte is the result of exactly one index. -/
def Obligations.SboxIsABijection : Prop :=
  ∀ (s : State), s.build.WellFormed → s.build.hasSbox = true →
    ∀ y : Byte, ∃ idx : Byte, exec (.sbox idx) s = .next (s.answer ⟨.ok, y⟩) ∧
      ∀ idx' : Byte, exec (.sbox idx') s = .next (s.answer ⟨.ok, y⟩) → idx' = idx

/-! ### The host's moves, reset, invariant -/

/-- 30_encoding.md R67, 70_reset_and_hazards.md R147: the host stores bytes into a buffer between commands; those indices hold
them, and nothing else changes. -/
def Obligations.HostStoresIntoBuffers : Prop :=
  ∀ (s : State) (m : Nat) (bytes : List Byte) (rest : List ScriptLine), m + bytes.length ≤ 256 →
    (s.ibuf.wf = true → s.script = .storeIbuf m bytes :: rest →
      ∃ b : Memory, step s = .next ((s.setScript rest).setIbuf b) ∧
        ∀ a, b.read a = if h : m ≤ a ∧ a - m < bytes.length then bytes[a - m] else s.ibuf.read a) ∧
    (s.obuf.wf = true → s.script = .storeObuf m bytes :: rest →
      ∃ b : Memory, step s = .next ((s.setScript rest).setObuf b) ∧
        ∀ a, b.read a = if h : m ≤ a ∧ a - m < bytes.length then bytes[a - m] else s.obuf.read a)

/-- 20_memory.md R52: between PAD and MIX the host copies `OBUF[0, n)` to `IBUF[0, n)`. -/
def Obligations.HostCopyFeedsTheMixer : Prop :=
  ∀ (s : State) (n : Nat) (rest : List ScriptLine), s.ibuf.wf = true → n ≤ 256 → s.script = .copyObufToIbuf n :: rest →
    ∃ b : Memory, step s = .next ((s.setScript rest).setIbuf b) ∧
      ∀ a, b.read a = if a < n then s.obuf.read a else s.ibuf.read a

/-- A reset asserted between commands changes nothing but the script. This is the model's reading (DEDUCED, log entry 14):
70_reset_and_hazards.md section 1 says both that reset does not touch the buffers and that their contents after it are
unspecified, and the model reads the first of a reset asserted in a run. -/
def Obligations.ResetBetweenCommandsHasNoEffect : Prop :=
  ∀ (s : State) (rest : List ScriptLine), s.script = .assertReset :: rest → step s = .next (s.setScript rest)

/-- 20_memory.md R41: on a wide bus byte `i` of a buffer has bits `[8*i+7 : 8*i]`. -/
def Obligations.BusCarriesByteInItsLane : Prop :=
  ∀ (m : Memory) (i : Nat), i < 256 → m.toBus.extractLsb' (8 * i) 8 = m.read i

/-- The invariant: the build stays admissible, both buffers stay canonical, and no error response carries a result byte, whatever
step is taken. -/
def Obligations.StepKeepsInvariant : Prop :=
  ∀ s t : State, s.Inv → step s = .next t → t.Inv

/-- The invariant holds at reset, whatever values the spec leaves open. -/
def Obligations.ResetMeetsInvariant : Prop := State.reset.Inv

/-- 10_state.md R29: after reset no response is held, and each buffer holds an unspecified byte at each index. The empty script is
the model's choice (log entry 7). -/
def Obligations.ResetLeavesTheBuffersUnspecified : Prop :=
  State.reset.responses = [] ∧ State.reset.script = [] ∧ State.reset.build = Config.build ∧
  (∀ a < 256, State.reset.ibuf.read a = Config.freeIbufByte a) ∧ (∀ a < 256, State.reset.obuf.read a = Config.freeObufByte a)
end

