-- ==== Sys2Proof/Laws/Memory.lean ====
section
/-! SUPPORT. The laws of a buffer: reading after writing, the canonical form every operation keeps, and that equal contents are
equal data. -/

namespace Sys2Proof.Machine

theorem cellsWf_cons {lo a : Nat} {v : Byte} {rest : List Host.Cell} :
    cellsWf lo ((a, v) :: rest) = true ↔ lo ≤ a ∧ a < BUF_LEN ∧ v ≠ unlisted ∧ cellsWf (a + 1) rest = true := by
  simp [cellsWf, and_assoc]

theorem cellsWf_mono {lo lo' : Nat} (h : lo' ≤ lo) : ∀ {cells : List Host.Cell}, cellsWf lo cells = true → cellsWf lo' cells = true
  | [], _ => rfl
  | (_, _) :: _, hw => by
    rw [cellsWf_cons] at hw ⊢
    exact ⟨by omega, hw.2⟩

/-- Below the first index of a canonical list nothing is listed. -/
theorem readCells_below {lo x : Nat} (hx : x < lo) : ∀ {cells : List Host.Cell}, cellsWf lo cells = true → readCells cells x = unlisted
  | [], _ => rfl
  | (a, v) :: rest, hw => by
    rw [cellsWf_cons] at hw
    have hne : a ≠ x := by omega
    simp only [readCells, hne, if_false]
    exact readCells_below (lo := a + 1) (by omega) hw.2.2.2

theorem readCells_putCell (a : Nat) (v : Byte) (rest : List Host.Cell) (x : Nat) (h : readCells rest a = unlisted) :
    readCells (putCell a v rest) x = if x = a then v else readCells rest x := by
  unfold putCell
  split
  · split <;> simp_all
  · simp only [readCells, eq_comm]

theorem readCells_writeCells (a : Nat) (v : Byte) (x : Nat) :
    ∀ {cells : List Host.Cell} {lo : Nat}, cellsWf lo cells = true →
      readCells (writeCells cells a v) x = if x = a then v else readCells cells x
  | [], _, _ => readCells_putCell a v [] x rfl
  | (k, w) :: rest, lo, hw => by
    have hc := cellsWf_cons.mp hw
    unfold writeCells
    split
    · rename_i h
      exact readCells_putCell a v _ x (readCells_below (lo := k) h (cellsWf_cons.mpr ⟨le_refl k, hc.2⟩))
    · split
      · rename_i h1 h2
        subst h2
        rw [readCells_putCell a v rest x (readCells_below (lo := a + 1) (by omega) hc.2.2.2)]
        by_cases hx : x = a
        · simp [hx]
        · simp [readCells, hx, Ne.symm hx]
      · rename_i h1 h2
        simp only [readCells, readCells_writeCells a v x hc.2.2.2]
        by_cases hx : k = x
        · have : x ≠ a := by omega
          simp [hx, this]
        · simp [hx]

theorem cellsWf_putCell {lo a : Nat} (v : Byte) {rest : List Host.Cell} (hlo : lo ≤ a) (ha : a < BUF_LEN)
    (h : cellsWf (a + 1) rest = true) : cellsWf lo (putCell a v rest) = true := by
  unfold putCell
  split
  · exact cellsWf_mono (by omega) h
  · rename_i hv
    exact cellsWf_cons.mpr ⟨hlo, ha, hv, h⟩

theorem cellsWf_writeCells (a : Nat) (v : Byte) (ha : a < BUF_LEN) :
    ∀ {cells : List Host.Cell} {lo : Nat}, lo ≤ a → cellsWf lo cells = true → cellsWf lo (writeCells cells a v) = true
  | [], _, hlo, _ => cellsWf_putCell v hlo ha rfl
  | (k, w) :: rest, lo, hlo, hw => by
    have hc := cellsWf_cons.mp hw
    unfold writeCells
    split
    · rename_i h
      exact cellsWf_putCell v hlo ha (cellsWf_cons.mpr ⟨by omega, hc.2⟩)
    · split
      · rename_i h1 h2
        exact cellsWf_putCell v hlo ha (h2 ▸ hc.2.2.2)
      · rename_i h1 h2
        exact cellsWf_cons.mpr ⟨hc.1, hc.2.1, hc.2.2.1, cellsWf_writeCells a v ha (by omega) hc.2.2.2⟩

/-- A read after a write gives the byte written, and every other index reads as before. -/
theorem Memory.read_write {m : Memory} (hm : m.wf = true) (a : Nat) (v : Byte) (x : Nat) :
    (m.write a v).read x = if x = a then v else m.read x :=
  readCells_writeCells a v x hm

/-- A write within the buffer keeps the canonical form. -/
theorem Memory.wf_write {m : Memory} (hm : m.wf = true) {a : Nat} (ha : a < BUF_LEN) (v : Byte) : (m.write a v).wf = true :=
  cellsWf_writeCells a v ha (Nat.zero_le a) hm

theorem Memory.wf_writeRange : ∀ {bytes : List Byte} {m : Memory} {a : Nat}, m.wf = true → a + bytes.length ≤ BUF_LEN →
    (m.writeRange a bytes).wf = true
  | [], _, _, hm, _ => hm
  | v :: rest, m, a, hm, ha => by
    simp only [List.length_cons] at ha
    exact Memory.wf_writeRange (bytes := rest) (Memory.wf_write hm (by omega) v) (by omega)

/-- Storing bytes at `a`, `a + 1`, ... changes those indices and no other. -/
theorem Memory.read_writeRange : ∀ {bytes : List Byte} {m : Memory} {a : Nat}, m.wf = true → a + bytes.length ≤ BUF_LEN →
    ∀ x, (m.writeRange a bytes).read x = if a ≤ x then (bytes[x - a]?).getD (m.read x) else m.read x
  | [], _, _, _, _, _ => by simp [Memory.writeRange]
  | v :: rest, m, a, hm, ha, x => by
    simp only [List.length_cons] at ha
    rw [Memory.writeRange, Memory.read_writeRange (bytes := rest) (Memory.wf_write hm (by omega) v) (by omega),
      Memory.read_write hm]
    rcases Nat.lt_trichotomy x a with h | h | h
    · have h1 : ¬ a + 1 ≤ x := by omega
      have h2 : ¬ a ≤ x := by omega
      have h3 : x ≠ a := by omega
      simp [h1, h2, h3]
    · subst h
      simp
    · obtain ⟨d, rfl⟩ : ∃ d, x = a + 1 + d := ⟨x - (a + 1), by omega⟩
      have h1 : a + 1 + d - a = d + 1 := by omega
      have h3 : a + 1 + d ≠ a := by omega
      simp [h1, h3, show a ≤ a + 1 + d by omega]

@[simp] theorem Memory.length_readRange (m : Memory) : ∀ (n a : Nat), (m.readRange a n).length = n
  | 0, _ => rfl
  | n + 1, a => by simp [Memory.readRange, Memory.length_readRange m n (a + 1)]

theorem Memory.getElem?_readRange (m : Memory) : ∀ (n a i : Nat), (m.readRange a n)[i]? = if i < n then some (m.read (a + i)) else none
  | 0, _, _ => by simp [Memory.readRange]
  | n + 1, a, 0 => by simp [Memory.readRange]
  | n + 1, a, i + 1 => by
    simp only [Memory.readRange, List.getElem?_cons_succ, Memory.getElem?_readRange m n (a + 1) i]
    simp [show a + 1 + i = a + (i + 1) by omega]

/-- Two buffers that read the same on a range give the same bytes. -/
theorem Memory.readRange_congr {m m' : Memory} : ∀ {n a : Nat}, (∀ x, a ≤ x → x < a + n → m.read x = m'.read x) →
    m.readRange a n = m'.readRange a n
  | 0, _, _ => rfl
  | n + 1, a, h => by
    simp only [Memory.readRange]
    rw [h a (le_refl a) (by omega), Memory.readRange_congr (a := a + 1) fun x h1 h2 => h x (by omega) (by omega)]

theorem cells_eq_of_read_eq : ∀ {c d : List Host.Cell} {lo : Nat}, cellsWf lo c = true → cellsWf lo d = true →
    (∀ x, readCells c x = readCells d x) → c = d
  | [], [], _, _, _, _ => rfl
  | [], (a, v) :: rest, _, _, hd, h => by
    have := h a
    simp only [readCells, if_true] at this
    exact absurd this.symm (cellsWf_cons.mp hd).2.2.1
  | (a, v) :: rest, [], _, hc, _, h => by
    have := h a
    simp only [readCells, if_true] at this
    exact absurd this (cellsWf_cons.mp hc).2.2.1
  | (a, v) :: r, (b, w) :: q, lo, hc, hd, h => by
    have hc' := cellsWf_cons.mp hc
    have hd' := cellsWf_cons.mp hd
    have hab : a = b := by
      rcases Nat.lt_trichotomy a b with hlt | heq | hlt
      · have := h a
        rw [readCells_below (x := a) (lo := b) hlt (cellsWf_cons.mpr ⟨le_refl b, hd'.2⟩)] at this
        simp only [readCells, if_true] at this
        exact absurd this hc'.2.2.1
      · exact heq
      · have := h b
        rw [readCells_below (x := b) (lo := a) hlt (cellsWf_cons.mpr ⟨le_refl a, hc'.2⟩)] at this
        simp only [readCells, if_true] at this
        exact absurd this.symm hd'.2.2.1
    subst hab
    have hvw : v = w := by simpa [readCells] using h a
    subst hvw
    rw [cells_eq_of_read_eq hc'.2.2.2 hd'.2.2.2 fun x => ?_]
    by_cases hx : a = x
    · subst hx
      rw [readCells_below (Nat.lt_succ_self a) hc'.2.2.2, readCells_below (Nat.lt_succ_self a) hd'.2.2.2]
    · simpa [readCells, hx] using h x

/-- Canonical buffers with the same contents are the same data. -/
theorem Memory.eq_of_read_eq {m m' : Memory} (hm : m.wf = true) (hm' : m'.wf = true) (h : ∀ x, m.read x = m'.read x) : m = m' := by
  cases m; cases m'
  exact congrArg Memory.mk (cells_eq_of_read_eq hm hm' h)

theorem cellsWf_holding (f : Nat → Byte) : ∀ (n lo : Nat), lo + n ≤ BUF_LEN →
    cellsWf lo ((List.range' lo n).filterMap fun a => if f a = unlisted then none else some (a, f a)) = true
  | 0, _, _ => rfl
  | n + 1, lo, h => by
    have ih := cellsWf_holding f n (lo + 1) (by omega)
    rw [List.range'_succ, List.filterMap_cons]
    split
    · exact cellsWf_mono (by omega) ih
    · rename_i hv
      split at hv
      · simp at hv
      · rename_i hne
        obtain rfl := Option.some.inj hv
        exact cellsWf_cons.mpr ⟨le_refl lo, by omega, hne, ih⟩

/-- The buffers reset leaves are in canonical form, whatever bytes they hold. -/
theorem Memory.wf_holding (f : Nat → Byte) : (Memory.holding f).wf = true := by
  unfold Memory.wf Memory.holding
  rw [List.range_eq_range']
  exact cellsWf_holding f BUF_LEN 0 (le_refl _)

end Sys2Proof.Machine
end

