-- ==== Sys2Proof/Laws/State.lean ====
section
/-! SUPPORT. One lemma per field per update of the state, so that no later proof unfolds a record update. -/

namespace Sys2Proof.Machine

variable (s : State) (m : Memory) (lines : List ScriptLine) (line : ScriptLine) (r : Response) (o : OpResult)

@[simp] theorem State.setIbuf_build : (s.setIbuf m).build = s.build := rfl
@[simp] theorem State.setIbuf_ibuf : (s.setIbuf m).ibuf = m := rfl
@[simp] theorem State.setIbuf_obuf : (s.setIbuf m).obuf = s.obuf := rfl
@[simp] theorem State.setIbuf_script : (s.setIbuf m).script = s.script := rfl
@[simp] theorem State.setIbuf_responses : (s.setIbuf m).responses = s.responses := rfl

@[simp] theorem State.setObuf_build : (s.setObuf m).build = s.build := rfl
@[simp] theorem State.setObuf_ibuf : (s.setObuf m).ibuf = s.ibuf := rfl
@[simp] theorem State.setObuf_obuf : (s.setObuf m).obuf = m := rfl
@[simp] theorem State.setObuf_script : (s.setObuf m).script = s.script := rfl
@[simp] theorem State.setObuf_responses : (s.setObuf m).responses = s.responses := rfl
@[simp] theorem State.setObuf_self : s.setObuf s.obuf = s := rfl

@[simp] theorem State.setScript_build : (s.setScript lines).build = s.build := rfl
@[simp] theorem State.setScript_ibuf : (s.setScript lines).ibuf = s.ibuf := rfl
@[simp] theorem State.setScript_obuf : (s.setScript lines).obuf = s.obuf := rfl
@[simp] theorem State.setScript_script : (s.setScript lines).script = lines := rfl
@[simp] theorem State.setScript_responses : (s.setScript lines).responses = s.responses := rfl
@[simp] theorem State.setScript_self : s.setScript s.script = s := rfl
@[simp] theorem State.setScript_setScript (more : List ScriptLine) :
    (s.setScript lines).setScript more = s.setScript more := rfl

@[simp] theorem State.answer_build : (s.answer r).build = s.build := rfl
@[simp] theorem State.answer_ibuf : (s.answer r).ibuf = s.ibuf := rfl
@[simp] theorem State.answer_obuf : (s.answer r).obuf = s.obuf := rfl
@[simp] theorem State.answer_script : (s.answer r).script = s.script := rfl
@[simp] theorem State.answer_responses : (s.answer r).responses = s.responses ++ [r] := rfl

@[simp] theorem State.complete_build : (s.complete o).build = s.build := rfl
@[simp] theorem State.complete_ibuf : (s.complete o).ibuf = s.ibuf := rfl
@[simp] theorem State.complete_obuf : (s.complete o).obuf = o.obufAfter s.obuf := rfl
@[simp] theorem State.complete_script : (s.complete o).script = s.script := rfl
@[simp] theorem State.complete_responses : (s.complete o).responses = s.responses ++ [o.response] := rfl

@[simp] theorem State.pushLine_build : (s.pushLine line).build = s.build := rfl
@[simp] theorem State.pushLine_ibuf : (s.pushLine line).ibuf = s.ibuf := rfl
@[simp] theorem State.pushLine_obuf : (s.pushLine line).obuf = s.obuf := rfl
@[simp] theorem State.pushLine_script : (s.pushLine line).script = line :: s.script := rfl
@[simp] theorem State.pushLine_responses : (s.pushLine line).responses = s.responses := rfl

/-- Two states with equal fields are equal. -/
theorem State.ext_fields {s t : State} (hb : s.build = t.build) (hi : s.ibuf = t.ibuf) (ho : s.obuf = t.obuf)
    (hs : s.script = t.script) (hr : s.responses = t.responses) : s = t := by
  cases s; cases t; simp_all

end Sys2Proof.Machine
end

