-- ==== Sys2Proof/Laws/Ops.lean ====
section
/-! SUPPORT. One lemma per shared operation that says once what it can do; proofs cite these and do not unfold the operations. -/

namespace Sys2Proof.Machine

/-- The end of an operation always gives a next state: one response more, OBUF perhaps rewritten, nothing else. -/
@[simp] theorem finish_eq (r : OpResult) (s : State) : finish r s = .next (s.complete r) := rfl

theorem finish_next {r : OpResult} {s t : State} (h : finish r s = .next t) :
    t.build = s.build ∧ t.ibuf = s.ibuf ∧ t.script = s.script ∧ t.obuf = r.obufAfter s.obuf ∧
      t.responses = s.responses ++ [r.response] := by
  cases h
  exact ⟨rfl, rfl, rfl, rfl, rfl⟩

/-- An error leaves OBUF as it was and answers a zero result byte. -/
@[simp] theorem complete_raised (s : State) (e : OpError) : s.complete (.raised e) = s.answer ⟨e.status, 0x00⟩ := rfl

@[simp] theorem complete_returnByte (s : State) (v : Byte) : s.complete (returnByte v s) = s.answer ⟨.ok, v⟩ := rfl

@[simp] theorem complete_doneWith (s : State) (bytes : List Byte) :
    s.complete (doneWith bytes s) = (s.setObuf (s.obuf.writeRange 0 bytes)).answer ⟨.ok, 0x00⟩ := rfl

@[simp] theorem length_masterKey (s : State) (len : Byte) : (masterKey s len).length = len.toNat :=
  Memory.length_readRange _ _ _

@[simp] theorem length_paddedKey (s : State) (kb : Byte) : (paddedKey s kb).length = kb.toNat :=
  Memory.length_readRange _ _ _

@[simp] theorem length_filler (b : Build) (n : Nat) : (filler b n).length = min n PAD_LEN := by
  simp [filler]

@[simp] theorem length_mixLoop : ∀ (xs : List Byte) (p2 p1 : Byte), (mixLoop p2 p1 xs).length = xs.length
  | [], _, _ => rfl
  | x :: rest, p2, p1 => by simp [mixLoop, length_mixLoop rest]

/-- What `pad` can end with. -/
theorem padKey_cases (b : Build) (key : List Byte) (keyBytes : Nat) :
    (keyBytes < key.length ∧ padKey b key keyBytes = .error (.invalidKeyLength .masterKeyTooLong)) ∨
    (key.length ≤ keyBytes ∧ PAD_LEN < keyBytes - key.length ∧
      padKey b key keyBytes = .error (.invalidKeyLength .paddingTooLong)) ∨
    (key.length ≤ keyBytes ∧ keyBytes - key.length ≤ PAD_LEN ∧
      padKey b key keyBytes = .ok (key ++ filler b (keyBytes - key.length))) := by
  unfold padKey
  split
  · exact .inl ⟨‹_›, rfl⟩
  · split
    · exact .inr (.inl ⟨by omega, ‹_›, rfl⟩)
    · exact .inr (.inr ⟨by omega, by omega, rfl⟩)

/-- What `mix` can end with. -/
theorem mixKey_cases (key : List Byte) :
    (key.length < 2 ∧ mixKey key = .error (.invalidKeyLength .workingKeyTooShort)) ∨
    (∃ out, 2 ≤ key.length ∧ out.length = key.length ∧ mixKey key = .ok out) := by
  rcases key with _ | ⟨x0, _ | ⟨x1, rest⟩⟩
  · exact .inl ⟨by simp, rfl⟩
  · exact .inl ⟨by simp, rfl⟩
  · exact .inr ⟨_, by simp, by simp, rfl⟩

/-- Every command ends: there is an operation's end that `exec` applies. -/
theorem exec_eq_finish (i : Instr) (s : State) : ∃ r, exec i s = finish r s := by
  cases i <;> exact ⟨_, rfl⟩

/-- The one thing a script line can do to the machine. -/
theorem withinBuffers_cases (line : ScriptLine) (after : State) :
    (line.wellFormed = true ∧ withinBuffers line after = .next after) ∨
    (line.wellFormed = false ∧ withinBuffers line after = .fault .hostIndexOutOfRange) := by
  unfold withinBuffers
  split
  · exact .inl ⟨‹_›, rfl⟩
  · exact .inr ⟨Bool.eq_false_iff.mpr ‹_›, rfl⟩

/-- A command line is answered: `runCommand` applies some operation's end. -/
theorem runCommand_eq_finish (w : CmdWord) (s : State) : ∃ r, runCommand w s = finish r s := by
  unfold runCommand
  split
  · exact exec_eq_finish _ s
  · exact ⟨_, rfl⟩

/-- What a step can do: nothing to do, a host line outside the buffers, a command answered, or a host action within them. -/
theorem step_cases (s : State) :
    (s.script = [] ∧ step s = .next s) ∨
    (∃ w rest r, s.script = .command w :: rest ∧ step s = .next ((s.setScript rest).complete r)) ∨
    (∃ line rest, s.script = line :: rest ∧ line.wellFormed = false ∧ step s = .fault .hostIndexOutOfRange) ∨
    (∃ m bytes rest, s.script = .storeIbuf m bytes :: rest ∧ m + bytes.length ≤ BUF_LEN ∧
      step s = .next ((s.setScript rest).setIbuf (s.ibuf.writeRange m bytes))) ∨
    (∃ m bytes rest, s.script = .storeObuf m bytes :: rest ∧ m + bytes.length ≤ BUF_LEN ∧
      step s = .next ((s.setScript rest).setObuf (s.obuf.writeRange m bytes))) ∨
    (∃ n rest, s.script = .copyObufToIbuf n :: rest ∧ n ≤ BUF_LEN ∧
      step s = .next ((s.setScript rest).setIbuf (s.ibuf.writeRange 0 (s.obuf.readRange 0 n)))) ∨
    (∃ rest, s.script = .assertReset :: rest ∧ step s = .next (s.setScript rest)) := by
  unfold step
  rcases hs : s.script with _ | ⟨line, rest⟩
  · exact .inl ⟨rfl, rfl⟩
  · refine .inr ?_
    cases line with
    | command w =>
      obtain ⟨r, hr⟩ := runCommand_eq_finish w (s.setScript rest)
      exact .inl ⟨w, rest, r, rfl, hr⟩
    | storeIbuf m bytes =>
      rcases withinBuffers_cases (.storeIbuf m bytes) ((s.setScript rest).setIbuf (s.ibuf.writeRange m bytes)) with ⟨h, e⟩ | ⟨h, e⟩
      · exact .inr (.inr (.inl ⟨m, bytes, rest, rfl, by simpa [ScriptLine.wellFormed] using h, e⟩))
      · exact .inr (.inl ⟨_, rest, rfl, h, e⟩)
    | storeObuf m bytes =>
      rcases withinBuffers_cases (.storeObuf m bytes) ((s.setScript rest).setObuf (s.obuf.writeRange m bytes)) with ⟨h, e⟩ | ⟨h, e⟩
      · exact .inr (.inr (.inr (.inl ⟨m, bytes, rest, rfl, by simpa [ScriptLine.wellFormed] using h, e⟩)))
      · exact .inr (.inl ⟨_, rest, rfl, h, e⟩)
    | copyObufToIbuf n =>
      rcases withinBuffers_cases (.copyObufToIbuf n) ((s.setScript rest).setIbuf (s.ibuf.writeRange 0 (s.obuf.readRange 0 n))) with
        ⟨h, e⟩ | ⟨h, e⟩
      · exact .inr (.inr (.inr (.inr (.inl ⟨n, rest, rfl, by simpa [ScriptLine.wellFormed] using h, e⟩))))
      · exact .inr (.inl ⟨_, rest, rfl, h, e⟩)
    | assertReset => exact .inr (.inr (.inr (.inr (.inr ⟨rest, rfl, rfl⟩))))

end Sys2Proof.Machine
end

