-- ==== Sys2Proof/Laws/PerInstr.lean ====
section
/-! SUPPORT. The three fields of an assembled word, and a statement made of every command as syntax, one lemma per constructor. -/

namespace Sys2Proof

theorem getLsbD_assemble (op a b : Byte) (i : Nat) :
    (assemble op a b).getLsbD i =
      if i < 8 then b.getLsbD i else if i < 16 then a.getLsbD (i - 8) else op.getLsbD (i - 16) := by
  have h₁ := BitVec.getLsbD_append (x := op ++ a) (y := b) (i := i)
  have h₂ := BitVec.getLsbD_append (x := op) (y := a) (i := i - 8)
  refine h₁.trans ?_
  rw [h₂, Nat.sub_sub]
  by_cases hb : i < 8
  · simp [hb]
  · by_cases ha : i < 16
    · simp [hb, ha, show i - 8 < 8 by omega]
    · simp [hb, ha, show ¬ i - 8 < 8 by omega]

@[simp] theorem op_assemble (op a b : Byte) : CmdWord.op (assemble op a b) = op := by
  refine BitVec.eq_of_getLsbD_eq fun i hi => ?_
  simp [CmdWord.op, getLsbD_assemble, hi, show ¬ 16 + i < 8 by omega]

@[simp] theorem a_assemble (op a b : Byte) : CmdWord.a (assemble op a b) = a := by
  refine BitVec.eq_of_getLsbD_eq fun i hi => ?_
  simp [CmdWord.a, getLsbD_assemble, hi, show 8 + i < 16 by omega]

@[simp] theorem b_assemble (op a b : Byte) : CmdWord.b (assemble op a b) = b := by
  refine BitVec.eq_of_getLsbD_eq fun i hi => ?_
  simp [CmdWord.b, getLsbD_assemble, hi]

/-- A word is its three fields. -/
theorem assemble_fields (w : CmdWord) : assemble (CmdWord.op w) (CmdWord.a w) (CmdWord.b w) = w := by
  refine BitVec.eq_of_getLsbD_eq fun i hi => ?_
  rw [getLsbD_assemble]
  by_cases hb : i < 8
  · simp [hb, CmdWord.b]
  · by_cases ha : i < 16
    · simp [hb, ha, CmdWord.a, show i - 8 < 8 by omega, show 8 + (i - 8) = i by omega]
    · simp [hb, ha, CmdWord.op, show i - 16 < 8 by omega, show 16 + (i - 16) = i by omega]

theorem assemble_inj {op a b op' a' b' : Byte} : assemble op a b = assemble op' a' b' ↔ op = op' ∧ a = a' ∧ b = b' := by
  constructor
  · intro h
    exact ⟨by simpa using congrArg CmdWord.op h, by simpa using congrArg CmdWord.a h, by simpa using congrArg CmdWord.b h⟩
  · rintro ⟨rfl, rfl, rfl⟩
    rfl

theorem and_assemble (op a b op' a' b' : Byte) :
    assemble op a b &&& assemble op' a' b' = assemble (op &&& op') (a &&& a') (b &&& b') := by
  refine BitVec.eq_of_getLsbD_eq fun i _ => ?_
  simp only [BitVec.getLsbD_and, getLsbD_assemble]
  split <;> [rfl; (split <;> rfl)]

/-- A row whose mask and pattern are given by fields selects a word field by field. -/
theorem selects_assemble (op a b mo ma mb po pa pb : Byte) :
    OpcodeRow.selects ⟨assemble mo ma mb, assemble po pa pb⟩ (assemble op a b) = true ↔
      op &&& mo = po ∧ a &&& ma = pa ∧ b &&& mb = pb := by
  simp [OpcodeRow.selects, and_assemble, assemble_inj]

end Sys2Proof

namespace Sys2Proof.Laws

/-- The word of a command selects the command's own row of the opcode map and no other row (30_encoding.md R63). -/
def RowOfWord.Statement (i : Instr) : Prop := ∀ r ∈ opcodeRows, r.selects (encode i) = true ↔ r = i.row

/-- The six rows by their fields (R63). -/
theorem opcodeRows_by_fields : opcodeRows =
    [⟨assemble 0xFF 0x00 0x00, assemble 0x01 0x00 0x00⟩, ⟨assemble 0xFF 0xE0 0xFF, assemble 0x02 0x00 0x00⟩,
     ⟨assemble 0xFF 0xFF 0x00, assemble 0x03 0x00 0x00⟩, ⟨assemble 0xFF 0x00 0xFF, assemble 0x04 0x00 0x00⟩,
     ⟨assemble 0xFF 0x00 0xFF, assemble 0x05 0x00 0x00⟩, ⟨assemble 0xFF 0x00 0xFF, assemble 0x06 0x00 0x00⟩] := by decide

/-- A 5-bit index leaves the three must-be-zero bits of its byte zero (R62). -/
theorem padc_high_bits (idx : BitVec 5) : (0#3 ++ idx : BitVec 8) &&& 0xE0 = 0x00 := by
  revert idx; decide

/-- Another opcode's row is not selected and is another row. -/
theorem other_row {op mo po : Byte} {p q : Prop} {r r' : OpcodeRow} (hop : op &&& mo ≠ po) (hr : r ≠ r') :
    (op &&& mo = po ∧ p ∧ q) ↔ r = r' := iff_of_false (fun h => hop h.1) hr

theorem RowOfWord.pad (len kb : Byte) : RowOfWord.Statement (.pad len kb) := by
  rw [RowOfWord.Statement, opcodeRows_by_fields]
  simp only [List.forall_mem_cons, encode, selects_assemble, Instr.row]
  exact ⟨iff_of_true ⟨by decide, by simp, by simp⟩ (by decide), other_row (by decide) (by decide), other_row (by decide) (by decide),
    other_row (by decide) (by decide), other_row (by decide) (by decide), other_row (by decide) (by decide), by simp⟩

theorem RowOfWord.padc (idx : BitVec 5) : RowOfWord.Statement (.padc idx) := by
  rw [RowOfWord.Statement, opcodeRows_by_fields]
  simp only [List.forall_mem_cons, encode, selects_assemble, Instr.row]
  exact ⟨other_row (by decide) (by decide), iff_of_true ⟨by decide, padc_high_bits idx, by decide⟩ (by decide), other_row (by decide) (by decide),
    other_row (by decide) (by decide), other_row (by decide) (by decide), other_row (by decide) (by decide), by simp⟩

theorem RowOfWord.mix (kb : Byte) : RowOfWord.Statement (.mix kb) := by
  rw [RowOfWord.Statement, opcodeRows_by_fields]
  simp only [List.forall_mem_cons, encode, selects_assemble, Instr.row]
  exact ⟨other_row (by decide) (by decide), other_row (by decide) (by decide), iff_of_true ⟨by decide, by decide, by simp⟩ (by decide),
    other_row (by decide) (by decide), other_row (by decide) (by decide), other_row (by decide) (by decide), by simp⟩

theorem RowOfWord.amul (x : Byte) : RowOfWord.Statement (.amul x) := by
  rw [RowOfWord.Statement, opcodeRows_by_fields]
  simp only [List.forall_mem_cons, encode, selects_assemble, Instr.row]
  exact ⟨other_row (by decide) (by decide), other_row (by decide) (by decide), other_row (by decide) (by decide),
    iff_of_true ⟨by decide, by simp, by decide⟩ (by decide), other_row (by decide) (by decide), other_row (by decide) (by decide), by simp⟩

theorem RowOfWord.adiv (x : Byte) : RowOfWord.Statement (.adiv x) := by
  rw [RowOfWord.Statement, opcodeRows_by_fields]
  simp only [List.forall_mem_cons, encode, selects_assemble, Instr.row]
  exact ⟨other_row (by decide) (by decide), other_row (by decide) (by decide), other_row (by decide) (by decide),
    other_row (by decide) (by decide), iff_of_true ⟨by decide, by simp, by decide⟩ (by decide), other_row (by decide) (by decide), by simp⟩

theorem RowOfWord.sbox (idx : Byte) : RowOfWord.Statement (.sbox idx) := by
  rw [RowOfWord.Statement, opcodeRows_by_fields]
  simp only [List.forall_mem_cons, encode, selects_assemble, Instr.row]
  exact ⟨other_row (by decide) (by decide), other_row (by decide) (by decide), other_row (by decide) (by decide),
    other_row (by decide) (by decide), other_row (by decide) (by decide), iff_of_true ⟨by decide, by simp, by decide⟩ (by decide), by simp⟩

end Sys2Proof.Laws
end

