-- ==== Sys2Proof/Tests/Slice0.lean ====
section
/-! SUPPORT. Tests of one step each, with expected results from spec/95_test_vectors.md (the vector's id is in the docstring), and
for every statement with hypotheses a concrete state and operands that meet them. -/

namespace Sys2Proof.Tests

open Sys2Proof.Machine

/-! ### A small instance -/

/-- The illustrative PAD_CONST of 93_implementation_defined.md K2. -/
def padConstK2 : Vector Byte PAD_LEN :=
  #v[0xB7, 0xE1, 0x51, 0x62, 0x8A, 0xED, 0x2A, 0x6A, 0xBF, 0x71, 0x58, 0x80, 0x9C, 0xF4, 0xF3, 0xC7,
     0x62, 0xE7, 0x16, 0x0F, 0x38, 0xB4, 0xDA, 0x56, 0xA7, 0x84, 0xD9, 0x04, 0x51, 0x90, 0xCF, 0xEF]

/-- The table `255 - i`, which 95_test_vectors.md section 2.4 offers for self-tests. -/
def tableDown : Vector Byte SBOX_LEN := Vector.ofFn fun i => BitVec.ofNat 8 (255 - i.val)

/-- The illustrative build of 93_implementation_defined.md K1 and K2, with or without a table. -/
def buildK (table : Option (Vector Byte SBOX_LEN)) : Build := ⟨0x1F9, padConstK2, table⟩

/-- A buffer that begins with the bytes and holds 0x00 above them. -/
def startingWith (bytes : List Byte) : Memory := Memory.writeRange ⟨[]⟩ 0 bytes

/-- IBUF begins with the bytes, OBUF with ten bytes 0x55, the table is there, the host does `lines`. -/
def demo (bytes : List Byte) (lines : List ScriptLine) : State :=
  ⟨buildK (some tableDown), startingWith bytes, startingWith (List.replicate 10 0x55), lines, []⟩

/-- The same without the table. -/
def demoPlain (lines : List ScriptLine) : State := { demo [] lines with build := buildK none }

/-- The last response of a next state. -/
def answerOf (o : Host.Outcome State Fault Refusal) : Option Response :=
  match o with
  | .next t => t.responses.getLast?
  | .fault _ => none
  | .refused _ => none

/-- The first `n` bytes of OBUF of a next state. -/
def outputOf (o : Host.Outcome State Fault Refusal) (n : Nat) : List Byte :=
  match o with
  | .next t => t.obuf.readRange 0 n
  | .fault _ => []
  | .refused _ => []

/-! ### Decoding: words written out from the patterns of 30_encoding.md R63 -/

theorem test_decode_pad : decode true 0b000000010000010100001000 = .ok (.pad 5 8) := by decide
theorem test_decode_padc : decode true 0b000000100001111100000000 = .ok (.padc 31) := by decide
theorem test_decode_mix : decode true 0b000000110000000000000100 = .ok (.mix 4) := by decide
theorem test_decode_amul : decode true 0b000001001000000000000000 = .ok (.amul 0x80) := by decide
theorem test_decode_adiv : decode true 0b000001010000001000000000 = .ok (.adiv 2) := by decide
theorem test_decode_sbox : decode true 0b000001100000010100000000 = .ok (.sbox 5) := by decide

/-- Words no command has (E1 to E8). -/
theorem test_decode_illegal : [0x000000, 0x070000, 0xFFFFFF, 0x022000, 0x020001, 0x030102, 0x040001, 0x0500FF].all
    (fun w => (decode true w).toOption.isNone) = true := by decide

/-- SBOX where the table is absent (X4). -/
theorem test_decode_sbox_absent : decode false 0x060000 = .error .tableAbsent := by decide

/-- The words of R67's table. -/
theorem test_encode : [encode (.pad 5 8), encode (.padc 31), encode (.mix 4), encode (.amul 1), encode (.adiv 2), encode (.sbox 0)] =
    [0x010508, 0x021F00, 0x030004, 0x040100, 0x050200, 0x060000] := by decide

theorem test_spelling : (Instr.pad 5 8).spelling = "PAD 5, 8" := by decide

theorem test_table_word : decodeTableWord 24 0x010000 = some (.pad 0 0) := by decide

/-! ### WellFormed: each check refuses an ill-formed term -/

theorem test_sbox_needs_table : (Instr.sbox 0).wellFormed false = false := by decide
theorem test_storeIbuf_range : (ScriptLine.storeIbuf 250 (List.replicate 7 0)).wellFormed = false := by decide
theorem test_storeObuf_range : (ScriptLine.storeObuf 256 [0]).wellFormed = false := by decide
theorem test_copy_range : (ScriptLine.copyObufToIbuf 257).wellFormed = false := by decide
theorem test_build_poly : ¬ Build.WellFormed ⟨0x101, padConstK2, none⟩ := by decide
theorem test_build_table : ¬ Build.WellFormed (buildK (some (Vector.replicate 256 7))) := by
  simp [buildK, List.nodup_replicate]

/-- The remainder of a polynomial over GF(2) by `d`, whose highest term is `X^k`: subtract shifted copies from `X^(k+n-1)` down. -/
def polyRem (d k : Nat) : Nat → Nat → Nat
  | 0, p => p
  | n + 1, p => polyRem d k n (if p.testBit (k + n) then p ^^^ (d <<< n) else p)

/-- No polynomial of degree 1 to 4 divides: the check behind the list of R104. -/
def noSmallDivisor (p : Nat) : Bool :=
  (List.range 32).all fun d => d < 2 || polyRem d d.log2 9 p != 0

/-- The list of R104 is what trial division finds among the polynomials of degree 8. -/
theorem test_irreducible_list : ((List.range' 256 256).filter noSmallDivisor) = irreduciblePolys.toList.map (·.toNat) := by
  decide +kernel

/-! ### Commands -/

/-- P2: two bytes of filler are not enough to see where the constant starts; three are. -/
theorem test_pad : outputOf (exec (.pad 5 8) (demo [0x01, 0x23, 0x45, 0x67, 0x89, 0xAA] [])) 9 =
    [0x01, 0x23, 0x45, 0x67, 0x89, 0xB7, 0xE1, 0x51, 0x55] := by decide +kernel

/-- P15: `255 - 222 = 33` is one too many. -/
theorem test_pad_rejects : answerOf (exec (.pad 222 255) (demo [] [])) = some ⟨.invalidKeyLength, 0⟩ := by decide +kernel

/-- P19. -/
theorem test_padc_last : answerOf (exec (.padc 31) (demo [] [])) = some ⟨.ok, 0xEF⟩ := by decide +kernel

/-- P20. -/
theorem test_padc_mid : answerOf (exec (.padc 8) (demo [] [])) = some ⟨.ok, 0xBF⟩ := by decide +kernel

/-- M7. -/
theorem test_mix : outputOf (exec (.mix 8) (demo [1, 2, 3, 4, 5, 6, 7, 8] [])) 9 =
    [0xE1, 0x55, 0x35, 0x8E, 0xC6, 0x52, 0x1F, 0x79, 0x55] := by decide +kernel

/-- M13. -/
theorem test_mix_rejects : answerOf (exec (.mix 1) (demo [1, 2] [])) = some ⟨.invalidKeyLength, 0⟩ := by decide +kernel

/-- The table of section 2.3 for 0x1F9: AMUL 0x80, 0xFF, 0x7F. -/
theorem test_amul : [0x80, 0xFF, 0x7F].map (alphaMul 0x1F9) = [0xF9, 0x07, 0xFE] := by decide

/-- Another admissible polynomial (section 2.3, row 0x11B). -/
theorem test_amul_other : answerOf (exec (.amul 0xFF) { demo [] [] with build := ⟨0x11B, padConstK2, none⟩ }) = some ⟨.ok, 0xE5⟩ := by
  decide +kernel

/-- The table of section 2.3 for 0x1F9: ADIV 0x01, 0xFF, 0xFE. -/
theorem test_adiv : [0x01, 0xFF, 0xFE].map (alphaDiv 0x1F9) = [0xFC, 0x83, 0x7F] := by decide

/-- Another admissible polynomial (section 2.3, row 0x11B). -/
theorem test_adiv_other : answerOf (exec (.adiv 0xFF) { demo [] [] with build := ⟨0x11B, padConstK2, none⟩ }) = some ⟨.ok, 0xF2⟩ := by
  decide +kernel

/-- X2 with the table `255 - i`. -/
theorem test_sbox : answerOf (exec (.sbox 0xFE) (demo [] [])) = some ⟨.ok, 0x01⟩ := by decide +kernel

/-- X4. -/
theorem test_sbox_absent : answerOf (step (demoPlain [.command 0x060000])) = some ⟨.illegalCmd, 0⟩ := by decide +kernel

/-- E4 through the step, with OBUF left alone. -/
theorem test_illegal_word : answerOf (step (demo [] [.command 0x022000])) = some ⟨.illegalCmd, 0⟩ ∧
    outputOf (step (demo [] [.command 0x022000])) 2 = [0x55, 0x55] := by decide +kernel

/-- The response word of R65, written `status:res`: `0:F9`, `1:00`, `2:00`. -/
theorem test_response_word : [Response.toWord ⟨.ok, 0xF9⟩, Response.toWord ⟨.invalidKeyLength, 0⟩, Response.toWord ⟨.illegalCmd, 0⟩] =
    [0x0F9, 0x100, 0x200] := by decide

/-- Program A, step 2: the host's copy. -/
theorem test_host_copy : (match step (demo [9] [.copyObufToIbuf 2]) with | .next t => t.ibuf.readRange 0 3 | _ => []) =
    [0x55, 0x55, 0x00] := by decide +kernel

/-- Nothing is listed below 0x00, and storing 0x00 takes the entry out again: the form stays canonical. -/
theorem test_canonical : ((startingWith [1, 2]).write 0 0).cells = [(1, 2)] := by decide

/-- The first command after reset runs, whatever the parameters are. -/
theorem test_fetch_after_reset : step (State.reset.withFetchWord 24 0x060500) = exec (.sbox 5) State.reset := by rfl

/-! ### Witnesses: the hypotheses of the statements are met -/

/-- The small instance's build is one the spec admits. -/
theorem demo_build : (buildK (some tableDown)).WellFormed := by
  refine ⟨by decide, ?_⟩
  simp only [buildK, Option.all_some, decide_eq_true_eq, tableDown, Vector.toList_ofFn, List.nodup_ofFn]
  intro i j h
  have hi : i.val < 256 := i.isLt
  have hj : j.val < 256 := j.isLt
  have := congrArg BitVec.toNat h
  simp only [BitVec.toNat_ofNat] at this
  exact Fin.ext (by omega)

/-- The small instance meets the invariant. -/
theorem demo_inv : (demo [1, 2, 3, 4] [.command 0x010508]).Inv :=
  ⟨demo_build, by decide +kernel, by decide +kernel, by simp [demo]⟩

theorem witness_decodeInvertsEncode : (Instr.sbox 255).wellFormed true = true := by decide

theorem witness_encodeInvertsDecode : decode false 0x021F00 = .ok (.padc 31) := by decide

theorem witness_opcodeRows : ∃ r ∈ opcodeRows, r.selects 0x060500 = true := by decide

/-- One word at the edge of each of R64's kinds. -/
theorem witness_illegalWords : listedIllegal true 0x000000 ∧ listedIllegal true 0x070000 ∧ listedIllegal true 0x022000 ∧
    listedIllegal true 0x020001 ∧ listedIllegal true 0x030100 ∧ listedIllegal true 0x060001 ∧ listedIllegal false 0x060000 ∧
    ¬ listedIllegal true 0x021F00 := by
  refine ⟨?_, ?_, ?_, ?_, ?_, ?_, ?_, ?_⟩ <;> decide

theorem witness_illegalStep : (demoPlain [.command 0x060000]).script = .command 0x060000 :: [] ∧
    listedIllegal (demoPlain [.command 0x060000]).build.hasSbox 0x060000 := by
  exact ⟨rfl, by decide +kernel⟩

/-- Words with forbidden lengths, at the edges: PAD 1, 0, PAD 0, 33, and MIX 1. -/
theorem witness_forbiddenLengths : ¬ padLegal 1 0 ∧ ¬ padLegal 0 33 ∧ (1#8).toNat < 2 ∧
    (demo [] [.command (assemble 0x01 1 0)]).script = .command (assemble 0x01 1 0) :: [] ∧
    (demo [] [.command (assemble 0x03 0x00 1)]).script = .command (assemble 0x03 0x00 1) :: [] :=
  ⟨by decide, by decide, by decide, rfl, rfl⟩

theorem witness_stepRuns : (demo [] [.command 0x030002]).script = .command 0x030002 :: [] ∧
    decode (demo [] []).build.hasSbox 0x030002 = .ok (.mix 2) := ⟨rfl, by decide +kernel⟩

theorem witness_presentedWord : (Instr.sbox 0).wellFormed (demo [] []).build.hasSbox = true := rfl

theorem witness_commandLine : (demo [] [.command 0xFFFFFF]).script = .command 0xFFFFFF :: [] := rfl

/-- A failing command with another command behind it. -/
theorem witness_failing : ∃ (t : State) (r : Response),
    (demo [] [.command 0x030001, .command 0x030002]).script = .command 0x030001 :: [.command 0x030002] ∧
    step (demo [] [.command 0x030001, .command 0x030002]) = .next t ∧
    t.responses = (demo [] [.command 0x030001, .command 0x030002]).responses ++ [r] ∧ r.status ≠ .ok :=
  ⟨_, _, rfl, rfl, rfl, by decide +kernel⟩

theorem witness_idle : (demo [] []).script = [] := rfl

theorem witness_badHostLine : ∃ line rest, (demo [] [.copyObufToIbuf 257]).script = line :: rest ∧ line.wellFormed = false :=
  ⟨_, _, rfl, by decide⟩

theorem witness_scriptOk : (demo [] [.storeIbuf 0 [1, 2], .command 0x030002, .copyObufToIbuf 256, .assertReset]).scriptOk = true := by
  decide

/-- Two different input buffers that agree on what `PAD 2, 4` reads. -/
theorem witness_readsOnlyOperands : (demo [1, 2, 3] []).build = (demo [1, 2, 4] []).build ∧
    (demo [1, 2, 3] []).obuf = (demo [1, 2, 4] []).obuf ∧ demo [1, 2, 3] [] ≠ demo [1, 2, 4] [] ∧
    ∀ a < ibufBytesRead (.pad 2 4), (demo [1, 2, 3] []).ibuf.read a = (demo [1, 2, 4] []).ibuf.read a :=
  ⟨rfl, rfl, by decide +kernel, by decide +kernel⟩

/-- Builds that differ in the polynomial and the table agree for PAD. -/
theorem witness_ownConstants : sameConstantsFor (buildK none) ⟨0x11B, padConstK2, some tableDown⟩ (.pad 0 1) := rfl

theorem witness_obufWf : (demo [1, 2, 3] []).obuf.wf = true := by decide +kernel

theorem witness_valueCommand : ∃ t, obufBytesStored (.amul 3) = 0 ∧ ibufBytesRead (.amul 3) = 0 ∧
    exec (.amul 3) (demo [] []) = .next t := ⟨_, rfl, rfl, rfl⟩

theorem witness_bufferCommand : ∃ t, (demo [] []).obuf.wf = true ∧ exec (.pad 0 4) (demo [] []) = .next t :=
  ⟨_, by decide +kernel, rfl⟩

/-- The edges of PAD's three clauses: `L = kb + 1`, `kb - L = 33`, `kb - L = 32` and `L = kb`. -/
theorem witness_padClauses : (4#8).toNat < (5#8).toNat ∧ ((0#8).toNat ≤ (33#8).toNat ∧ 32 < (33#8).toNat - (0#8).toNat) ∧
    padLegal 0 32 ∧ padLegal 255 255 ∧ padLegal 223 255 := by decide

theorem witness_padFiller : padLegal 0 32 ∧ (31#5).toNat < (32#8).toNat - (0#8).toNat := by decide

theorem witness_padcIndex : (31#5).toNat < 32 := by decide

/-- The edges of MIX's two clauses. -/
theorem witness_mixClauses : (1#8).toNat < 2 ∧ 2 ≤ (2#8).toNat ∧ 2 ≤ (255#8).toNat := by decide

theorem witness_mixFourZero : (demo [] []).obuf.wf = true ∧ ∀ a < 4, (demo [] []).ibuf.read a = 0x00 := by decide +kernel

/-- Two buffers that agree below index 3 and differ there (M7, M8). -/
theorem witness_mixCausal : (demo [1, 2, 3, 4] []).obuf.wf = true ∧ 2 ≤ (8#8).toNat ∧ 3 < (8#8).toNat ∧
    (∀ a < 3, (demo [1, 2, 3, 4] []).ibuf.read a = (demo [1, 2, 3, 0x84] []).ibuf.read a) ∧
    (demo [1, 2, 3, 4] []).ibuf.read 3 ≠ (demo [1, 2, 3, 0x84] []).ibuf.read 3 := by decide +kernel

theorem witness_mixPrefix : 2 ≤ (2#8).toNat ∧ (2#8).toNat ≤ (255#8).toNat := by decide

theorem witness_mixInvertible : 2 ≤ ([0xE0, 0x56] : List Byte).length := by decide

theorem witness_endsSet : (demo [] []).build.irredPoly.endsSet = true ∧ Poly9.endsSet 0x11B = true := ⟨by rfl, by decide⟩

theorem witness_irreducible : (0x1F9 : Poly9) ∈ irreduciblePolys.toList := by decide

theorem witness_sboxTable : (∃ table, (demo [] []).build.sbox = some table) ∧ (demoPlain []).build.sbox = none ∧
    (255#8).toNat < 256 := ⟨⟨_, rfl⟩, rfl, by decide⟩

theorem witness_sboxBijection : (demo [] []).build.WellFormed ∧ (demo [] []).build.hasSbox = true :=
  ⟨demo_build, rfl⟩

/-- A store that ends at the last index, for each buffer. -/
theorem witness_hostStores : 254 + ([7, 8] : List Byte).length ≤ 256 ∧ (demo [] []).ibuf.wf = true ∧ (demo [] []).obuf.wf = true ∧
    (demo [] [.storeIbuf 254 [7, 8]]).script = .storeIbuf 254 [7, 8] :: [] ∧
    (demo [] [.storeObuf 254 [7, 8]]).script = .storeObuf 254 [7, 8] :: [] := by decide +kernel

theorem witness_hostCopy : (demo [1] [.copyObufToIbuf 256]).ibuf.wf = true ∧
    (demo [1] [.copyObufToIbuf 256]).script = .copyObufToIbuf 256 :: [] := by decide +kernel

theorem witness_resetLine : (demo [] [.assertReset]).script = .assertReset :: [] := rfl

theorem witness_keepsInvariant : ∃ t, (demo [1, 2, 3, 4] [.command 0x010508]).Inv ∧
    step (demo [1, 2, 3, 4] [.command 0x010508]) = .next t := ⟨_, demo_inv, rfl⟩

theorem witness_busLane : 255 < 256 := by decide

theorem witness_resetLeaves : 255 < 256 := by decide

end Sys2Proof.Tests
end

section
/-! PROOFS of the invariant's statements (00_scope.md R5, 10_state.md R25 and R29, 30_encoding.md R65): what each end of an
operation does to OBUF, what each update of the state needs to keep the invariant, then the step and the reset. -/

namespace Sys2Proof.Machine

/-! ### What the end of an operation does to OBUF -/

/-- An operation's end keeps OBUF as it was or stores `n` bytes from index 0 (20_memory.md R43). -/
def OpResult.StoresFromZero (r : OpResult) (n : Nat) (before : Memory) : Prop :=
  r.obufAfter before = before ∨ ∃ bytes : List Byte, bytes.length = n ∧ r.obufAfter before = before.writeRange 0 bytes

theorem storesFromZero_raised (e : OpError) (n : Nat) (before : Memory) : (OpResult.raised e).StoresFromZero n before :=
  .inl rfl

theorem storesFromZero_returnByte (v : Byte) (n : Nat) (s : State) : (returnByte v s).StoresFromZero n s.obuf :=
  .inl rfl

theorem storesFromZero_doneOrRaise {r : Except OpError (List Byte)} {n : Nat} (s : State)
    (hlen : ∀ bytes, r = .ok bytes → bytes.length = n) : (doneOrRaise r s).StoresFromZero n s.obuf := by
  cases r with
  | ok bytes => exact .inr ⟨bytes, hlen bytes rfl, rfl⟩
  | error e => exact storesFromZero_raised e n s.obuf

/-- A padded key has the target length (R80). -/
theorem length_of_padKey_ok {b : Build} {key bytes : List Byte} {keyBytes : Nat} (h : padKey b key keyBytes = .ok bytes) :
    bytes.length = keyBytes := by
  rcases padKey_cases b key keyBytes with ⟨-, he⟩ | ⟨-, -, he⟩ | ⟨hle, hpad, he⟩
  · cases he.symm.trans h
  · cases he.symm.trans h
  · cases he.symm.trans h
    rw [List.length_append, length_filler, min_eq_left hpad]
    omega

/-- A mixed key is as long as the key (R90). -/
theorem length_of_mixKey_ok {key bytes : List Byte} (h : mixKey key = .ok bytes) : bytes.length = key.length := by
  rcases mixKey_cases key with ⟨-, he⟩ | ⟨out, -, hlen, he⟩
  · cases he.symm.trans h
  · cases he.symm.trans h
    exact hlen

/-- The inversion of `exec` at OBUF: a command stores its `obufBytesStored` bytes from index 0, or nothing. -/
theorem exec_storesFromZero (i : Instr) (s : State) :
    ∃ r, exec i s = finish r s ∧ r.StoresFromZero (obufBytesStored i) s.obuf := by
  cases i with
  | pad len kb => exact ⟨_, rfl, storesFromZero_doneOrRaise s fun _ h => length_of_padKey_ok h⟩
  | padc idx => exact ⟨_, rfl, storesFromZero_returnByte _ _ s⟩
  | mix kb => exact ⟨_, rfl, storesFromZero_doneOrRaise s fun _ h => (length_of_mixKey_ok h).trans (length_paddedKey s kb)⟩
  | amul x => exact ⟨_, rfl, storesFromZero_returnByte _ _ s⟩
  | adiv x => exact ⟨_, rfl, storesFromZero_returnByte _ _ s⟩
  | sbox idx =>
    refine ⟨_, rfl, ?_⟩
    cases s.build.sbox with
    | some table => exact storesFromZero_returnByte _ _ s
    | none => exact storesFromZero_raised _ _ _

/-- No command stores past the end of OBUF (R40): a length operand is one byte. -/
theorem obufBytesStored_le (i : Instr) : obufBytesStored i ≤ BUF_LEN := by
  cases i with
  | pad len kb => exact kb.isLt.le
  | mix kb => exact kb.isLt.le
  | _ => exact Nat.zero_le _

theorem OpResult.StoresFromZero.wf {r : OpResult} {n : Nat} {before : Memory} (h : r.StoresFromZero n before)
    (hn : n ≤ BUF_LEN) (hwf : before.wf = true) : (r.obufAfter before).wf = true := by
  rcases h with he | ⟨bytes, rfl, he⟩
  · rw [he]; exact hwf
  · rw [he]; exact Memory.wf_writeRange hwf (by omega)

/-- Whatever word is on CMD, the answer leaves OBUF canonical. -/
theorem runCommand_wf (w : CmdWord) {s : State} (hwf : s.obuf.wf = true) :
    ∃ r, runCommand w s = finish r s ∧ (r.obufAfter s.obuf).wf = true := by
  unfold runCommand
  split
  · rename_i i _
    obtain ⟨r, hr, hstores⟩ := exec_storesFromZero i s
    exact ⟨r, hr, hstores.wf (obufBytesStored_le i) hwf⟩
  · exact ⟨_, rfl, hwf⟩

/-! ### What keeps the invariant -/

/-- An error's response carries no result byte (R65, R124). -/
theorem OpResult.res_response_of_error (r : OpResult) (h : r.response.status ≠ .ok) : r.response.res = 0x00 := by
  cases r with
  | ok res obuf => exact absurd rfl h
  | raised e => rfl

theorem State.Inv.ibuf_wf {s : State} (h : s.Inv) : s.ibuf.wf = true := by
  obtain ⟨-, hibuf, -, -⟩ := h
  exact hibuf

theorem State.Inv.obuf_wf {s : State} (h : s.Inv) : s.obuf.wf = true := by
  obtain ⟨-, -, hobuf, -⟩ := h
  exact hobuf

theorem State.Inv.setScript {s : State} (h : s.Inv) (lines : List ScriptLine) : (s.setScript lines).Inv := h

theorem State.Inv.setIbuf {s : State} (h : s.Inv) {m : Memory} (hm : m.wf = true) : (s.setIbuf m).Inv := by
  obtain ⟨hbuild, -, hobuf, hresp⟩ := h
  exact ⟨hbuild, hm, hobuf, hresp⟩

theorem State.Inv.setObuf {s : State} (h : s.Inv) {m : Memory} (hm : m.wf = true) : (s.setObuf m).Inv := by
  obtain ⟨hbuild, hibuf, -, hresp⟩ := h
  exact ⟨hbuild, hibuf, hm, hresp⟩

theorem State.Inv.answer {s : State} (h : s.Inv) {r : Response} (hr : r.status ≠ .ok → r.res = 0x00) : (s.answer r).Inv := by
  obtain ⟨hbuild, hibuf, hobuf, hresp⟩ := h
  refine ⟨hbuild, hibuf, hobuf, fun q hq => ?_⟩
  rw [State.answer_responses, List.mem_append, List.mem_singleton] at hq
  rcases hq with hq | rfl
  · exact hresp q hq
  · exact hr

theorem State.Inv.complete {s : State} (h : s.Inv) {r : OpResult} (hr : (r.obufAfter s.obuf).wf = true) :
    (s.complete r).Inv :=
  (h.setObuf hr).answer r.res_response_of_error

theorem State.Inv.runCommand {s t : State} (h : s.Inv) {w : CmdWord} (ht : runCommand w s = .next t) : t.Inv := by
  obtain ⟨r, hr, hwf⟩ := runCommand_wf w h.obuf_wf
  cases hr.symm.trans ht
  exact h.complete hwf

/-- A step that takes a command off the script runs it on the rest. -/
theorem step_command {s : State} {w : CmdWord} {rest : List ScriptLine} (h : s.script = .command w :: rest) :
    step s = runCommand w (s.setScript rest) := by
  simp [step, h, runLine]

theorem State.Inv.step {s t : State} (h : s.Inv) (ht : step s = .next t) : t.Inv := by
  rcases step_cases s with ⟨-, he⟩ | ⟨w, rest, -, hs, -⟩ | ⟨_, _, -, -, he⟩ | ⟨m, bytes, rest, -, hm, he⟩ |
    ⟨m, bytes, rest, -, hm, he⟩ | ⟨n, rest, -, hn, he⟩ | ⟨rest, -, he⟩
  case inr.inl => exact (h.setScript rest).runCommand ((step_command hs).symm.trans ht)
  all_goals cases he.symm.trans ht
  · exact h
  · exact (h.setScript rest).setIbuf (Memory.wf_writeRange h.ibuf_wf hm)
  · exact (h.setScript rest).setObuf (Memory.wf_writeRange h.obuf_wf hm)
  · exact (h.setScript rest).setIbuf (Memory.wf_writeRange h.ibuf_wf (by simpa using hn))
  · exact h.setScript rest

/-- Settles O41: each line of the script is one update of the state, and each update keeps the invariant. -/
theorem stepKeepsInvariant : Obligations.StepKeepsInvariant := fun _ _ => State.Inv.step

/-! ### The state after reset -/

/-- A permutation of the 256 byte values, written as a table, repeats no entry (R116). -/
theorem nodup_table_of_perm (p : Equiv.Perm (Fin SBOX_LEN)) :
    (Vector.ofFn fun i => (BitVec.ofFin (p i) : Byte)).toList.Nodup := by
  rw [Vector.toList_ofFn, List.nodup_ofFn]
  intro i j h
  exact p.injective (congrArg BitVec.toFin h)

/-- The build at reset is admissible, whichever polynomial and table the opaque choices give. -/
theorem configBuild_wellFormed : Config.build.WellFormed := by
  constructor
  · exact Vector.mem_toList_iff.mpr (Vector.getElem_mem Config.irredChoice.isLt)
  · unfold Config.build
    cases Config.tablePresent with
    | true => simpa using nodup_table_of_perm Config.tablePerm
    | false => rfl

/-- Settles O42: the admissible build, two canonical buffers, and no response to speak of. -/
theorem resetMeetsInvariant : Obligations.ResetMeetsInvariant :=
  ⟨configBuild_wellFormed, Memory.wf_holding _, Memory.wf_holding _, fun _ hr => by cases hr⟩

end Sys2Proof.Machine
end

section
/-! PROOFS of the statements on what a command reads (10_state.md R25 and R30, 20_memory.md R43) and on the state reset leaves
(R29). Both noninterference statements rest on `exec_same_end`: the operands alone decide how a command ends. -/

namespace Sys2Proof.Machine

/-! ### What the ends and the meanings read -/

theorem returnByte_congr (v : Byte) {s₁ s₂ : State} (hobuf : s₁.obuf = s₂.obuf) : returnByte v s₁ = returnByte v s₂ :=
  congrArg (OpResult.ok v) hobuf

theorem doneOrRaise_congr (r : Except OpError (List Byte)) {s₁ s₂ : State} (hobuf : s₁.obuf = s₂.obuf) :
    doneOrRaise r s₁ = doneOrRaise r s₂ := by
  cases r with
  | ok bytes => exact congrArg (fun m : Memory => OpResult.ok 0x00 (m.writeRange 0 bytes)) hobuf
  | error e => rfl

theorem padRom_congr {b₁ b₂ : Build} (h : b₁.padConst = b₂.padConst) (idx : BitVec 5) : padRom b₁ idx = padRom b₂ idx := by
  simp only [padRom, h]

/-- Of the build, PAD reads the padding constant only (R25). -/
theorem padKey_congr {b₁ b₂ : Build} (h : b₁.padConst = b₂.padConst) (key : List Byte) (keyBytes : Nat) :
    padKey b₁ key keyBytes = padKey b₂ key keyBytes := by
  simp only [padKey, filler, h]

theorem masterKey_congr {len : Byte} {s₁ s₂ : State} (h : ∀ a < len.toNat, s₁.ibuf.read a = s₂.ibuf.read a) :
    masterKey s₁ len = masterKey s₂ len :=
  Memory.readRange_congr fun a _ ha => h a (by omega)

theorem paddedKey_congr {kb : Byte} {s₁ s₂ : State} (h : ∀ a < kb.toNat, s₁.ibuf.read a = s₂.ibuf.read a) :
    paddedKey s₁ kb = paddedKey s₂ kb :=
  Memory.readRange_congr fun a _ ha => h a (by omega)

theorem exec_sbox_of_table {s : State} {table : Vector Byte SBOX_LEN} (h : s.build.sbox = some table) (idx : Byte) :
    exec (.sbox idx) s = finish (returnByte (sboxRom table idx) s) s := by
  simp only [exec, execSbox, h]

theorem exec_sbox_of_no_table {s : State} (h : s.build.sbox = none) (idx : Byte) :
    exec (.sbox idx) s = finish (.raised .illegalCmd) s := by
  simp only [exec, execSbox, h]

/-! ### The operands decide how a command ends -/

theorem sameConstantsFor_refl (b : Build) (i : Instr) : sameConstantsFor b b i := by
  cases i with
  | mix kb => trivial
  | _ => rfl

/-- Two states with the same OBUF that agree on the constants (R25) and the IBUF bytes (R43) a command reads: it ends the same
in both. -/
theorem exec_same_end {i : Instr} {s₁ s₂ : State} (hconst : sameConstantsFor s₁.build s₂.build i) (hobuf : s₁.obuf = s₂.obuf)
    (hibuf : ∀ a < ibufBytesRead i, s₁.ibuf.read a = s₂.ibuf.read a) :
    ∃ r, exec i s₁ = finish r s₁ ∧ exec i s₂ = finish r s₂ := by
  cases i with
  | pad len kb =>
    refine ⟨doneOrRaise (padKey s₁.build (masterKey s₁ len) kb.toNat) s₁, rfl, ?_⟩
    rw [doneOrRaise_congr _ hobuf, padKey_congr hconst, masterKey_congr hibuf]
    rfl
  | padc idx =>
    refine ⟨returnByte (padRom s₁.build idx) s₁, rfl, ?_⟩
    rw [returnByte_congr _ hobuf, padRom_congr hconst]
    rfl
  | mix kb =>
    refine ⟨doneOrRaise (mixKey (paddedKey s₁ kb)) s₁, rfl, ?_⟩
    rw [doneOrRaise_congr _ hobuf, paddedKey_congr hibuf]
    rfl
  | amul x =>
    refine ⟨returnByte (alphaMul s₁.build.irredPoly x) s₁, rfl, ?_⟩
    rw [returnByte_congr _ hobuf, show s₁.build.irredPoly = s₂.build.irredPoly from hconst]
    rfl
  | adiv x =>
    refine ⟨returnByte (alphaDiv s₁.build.irredPoly x) s₁, rfl, ?_⟩
    rw [returnByte_congr _ hobuf, show s₁.build.irredPoly = s₂.build.irredPoly from hconst]
    rfl
  | sbox idx =>
    have htable : s₂.build.sbox = s₁.build.sbox := hconst.symm
    cases h₁ : s₁.build.sbox with
    | some table =>
      refine ⟨returnByte (sboxRom table idx) s₁, exec_sbox_of_table h₁ idx, ?_⟩
      rw [returnByte_congr _ hobuf]
      exact exec_sbox_of_table (htable.trans h₁) idx
    | none => exact ⟨.raised .illegalCmd, exec_sbox_of_no_table h₁ idx, exec_sbox_of_no_table (htable.trans h₁) idx⟩

/-- The same, as the host observes it: one response and one new OBUF. -/
theorem exec_same_answer {i : Instr} {s₁ s₂ : State} (hconst : sameConstantsFor s₁.build s₂.build i)
    (hobuf : s₁.obuf = s₂.obuf) (hibuf : ∀ a < ibufBytesRead i, s₁.ibuf.read a = s₂.ibuf.read a) :
    ∃ (t₁ t₂ : State) (r : Response), exec i s₁ = .next t₁ ∧ exec i s₂ = .next t₂ ∧ t₁.obuf = t₂.obuf ∧
      t₁.responses = s₁.responses ++ [r] ∧ t₂.responses = s₂.responses ++ [r] := by
  obtain ⟨r, h₁, h₂⟩ := exec_same_end hconst hobuf hibuf
  exact ⟨s₁.complete r, s₂.complete r, r.response, h₁, h₂, congrArg r.obufAfter hobuf, rfl, rfl⟩

/-- Settles O15: with one build for both states all constants agree. -/
theorem commandsReadOnlyTheirOperands : Obligations.CommandsReadOnlyTheirOperands := fun i _ s₂ hbuild hobuf hibuf =>
  exec_same_answer (hbuild ▸ sameConstantsFor_refl s₂.build i) hobuf hibuf

/-- Settles O16: only the build is replaced, so the buffers agree everywhere. -/
theorem unitsReadOnlyTheirOwnConstants : Obligations.UnitsReadOnlyTheirOwnConstants := fun _ s b hconst =>
  exec_same_answer (s₁ := s) (s₂ := { s with build := b }) hconst rfl fun _ _ => rfl

/-! ### The buffers after reset -/

/-- The pairs of `Memory.holding` over any indices: a listed index reads as `f` says, every other as an unlisted one. -/
theorem readCells_filterMap (f : Nat → Byte) (x : Nat) (indices : List Nat) :
    readCells (indices.filterMap fun a => if f a = unlisted then none else some (a, f a)) x =
      if x ∈ indices then f x else unlisted := by
  induction indices with
  | nil => rfl
  | cons a rest ih =>
    by_cases hfa : f a = unlisted
    · simp only [List.filterMap_cons, if_pos hfa, ih]
      by_cases hx : x = a
      · simp [hx, hfa]
      · simp [hx]
    · simp only [List.filterMap_cons, if_neg hfa, readCells, ih]
      by_cases hx : a = x
      · simp [hx]
      · simp [hx, Ne.symm hx]

theorem Memory.read_holding (f : Nat → Byte) {a : Nat} (ha : a < BUF_LEN) : (Memory.holding f).read a = f a :=
  (readCells_filterMap f a (List.range BUF_LEN)).trans (if_pos (List.mem_range.mpr ha))

/-- Settles O43: each buffer is the one that holds the free bytes. -/
theorem resetLeavesTheBuffersUnspecified : Obligations.ResetLeavesTheBuffersUnspecified :=
  ⟨rfl, rfl, rfl, fun _ => Memory.read_holding Config.freeIbufByte, fun _ => Memory.read_holding Config.freeObufByte⟩

end Sys2Proof.Machine
end

section
/-! PROOFS of the statements on the buffers (20_memory.md R41, R43, R52): what a command leaves of OBUF, why issuing it again
changes nothing more, the host's copy between PAD and MIX, and the lanes of a wide bus. -/

namespace Sys2Proof.Machine

/-! ### The frame of a command -/

/-- A command that has `n` bytes to store leaves index `n` and everything above it alone. -/
theorem OpResult.StoresFromZero.read_above {r : OpResult} {n : Nat} {before : Memory} (h : r.StoresFromZero n before)
    (hn : n ≤ BUF_LEN) (hwf : before.wf = true) {a : Nat} (ha : n ≤ a) : (r.obufAfter before).read a = before.read a := by
  rcases h with he | ⟨bytes, rfl, he⟩
  · rw [he]
  · have habove : bytes[a]? = none := List.getElem?_eq_none ha
    simp [he, Memory.read_writeRange hwf (show 0 + bytes.length ≤ BUF_LEN by omega), habove]

/-- A command that has no byte to store leaves OBUF as data. -/
theorem OpResult.StoresFromZero.eq_before {r : OpResult} {before : Memory} (h : r.StoresFromZero 0 before) :
    r.obufAfter before = before := by
  rcases h with he | ⟨bytes, hlen, he⟩
  · exact he
  · rw [he, List.eq_nil_of_length_eq_zero hlen]
    rfl

/-- The inversion of `exec` at its next state: the end of an operation that stores `obufBytesStored` bytes or none. -/
theorem exec_next {i : Instr} {s t : State} (h : exec i s = .next t) :
    ∃ r, t = s.complete r ∧ r.StoresFromZero (obufBytesStored i) s.obuf := by
  obtain ⟨r, hr, hstores⟩ := exec_storesFromZero i s
  cases hr.symm.trans h
  exact ⟨r, rfl, hstores⟩

/-- Settles O18: a command with no byte to store leaves OBUF as it was. -/
theorem valueCommandsTouchNoBuffer : Obligations.ValueCommandsTouchNoBuffer := by
  intro i s t hnone _ ht
  obtain ⟨r, rfl, hstores⟩ := exec_next ht
  rw [hnone] at hstores
  exact ⟨rfl, rfl, fun _ => rfl, fun a => congrArg (Memory.read · a) hstores.eq_before, r.response, rfl⟩

/-- Settles O19: what is stored begins at index 0 and has `kb` bytes. -/
theorem bufferCommandsStoreOnlyTheirRange : Obligations.BufferCommandsStoreOnlyTheirRange := by
  intro i s t hwf _ ht
  obtain ⟨r, rfl, hstores⟩ := exec_next ht
  exact ⟨rfl, rfl, fun _ => rfl, fun _ => hstores.read_above (obufBytesStored_le i) hwf, r.response, rfl⟩

/-! ### A command issued again -/

/-- Storing the same bytes at the same place again changes nothing. -/
theorem Memory.writeRange_again {m : Memory} (hm : m.wf = true) {a : Nat} {bytes : List Byte} (ha : a + bytes.length ≤ BUF_LEN) :
    (m.writeRange a bytes).writeRange a bytes = m.writeRange a bytes := by
  have hwf := Memory.wf_writeRange hm ha
  refine Memory.eq_of_read_eq (Memory.wf_writeRange hwf ha) hwf fun x => ?_
  rw [Memory.read_writeRange hwf ha, Memory.read_writeRange hm ha]
  by_cases hx : a ≤ x
  · cases h : bytes[x - a]? with
    | some v => simp [hx]
    | none => simp [hx]
  · simp [hx]

/-- An end that stores bytes or raises, reached again from the state it gave: one response more. -/
theorem complete_doneOrRaise_again {r : Except OpError (List Byte)} {s : State} (hwf : s.obuf.wf = true)
    (hlen : ∀ bytes, r = .ok bytes → bytes.length ≤ BUF_LEN) :
    (s.complete (doneOrRaise r s)).complete (doneOrRaise r (s.complete (doneOrRaise r s))) =
      (s.complete (doneOrRaise r s)).answer (doneOrRaise r s).response := by
  cases r with
  | ok bytes =>
    have hagain : (s.obuf.writeRange 0 bytes).writeRange 0 bytes = s.obuf.writeRange 0 bytes :=
      Memory.writeRange_again hwf (by simpa using hlen bytes rfl)
    exact State.ext_fields rfl rfl hagain rfl rfl
  | error e => rfl

/-- Settles O17: no command reads OBUF or writes IBUF, so the second run ends as the first did and stores the same bytes, if
any. -/
theorem commandsAreIdempotent : Obligations.CommandsAreIdempotent := by
  intro i s hwf
  cases i with
  | pad len kb =>
    have hlen : ∀ bytes, padKey s.build (masterKey s len) kb.toNat = .ok bytes → bytes.length ≤ BUF_LEN :=
      fun _ h => (length_of_padKey_ok h).trans_le (obufBytesStored_le (.pad len kb))
    exact ⟨_, _, rfl, rfl, congrArg Host.Outcome.next (complete_doneOrRaise_again hwf hlen)⟩
  | mix kb =>
    have hlen : ∀ bytes, mixKey (paddedKey s kb) = .ok bytes → bytes.length ≤ BUF_LEN :=
      fun _ h => (length_of_mixKey_ok h).trans_le ((length_paddedKey s kb).trans_le (obufBytesStored_le (.mix kb)))
    exact ⟨_, _, rfl, rfl, congrArg Host.Outcome.next (complete_doneOrRaise_again hwf hlen)⟩
  | padc idx => exact ⟨_, _, rfl, rfl, rfl⟩
  | amul x => exact ⟨_, _, rfl, rfl, rfl⟩
  | adiv x => exact ⟨_, _, rfl, rfl, rfl⟩
  | sbox idx =>
    cases h : s.build.sbox with
    | some table =>
      exact ⟨s.answer ⟨.ok, sboxRom table idx⟩, _, exec_sbox_of_table h idx, rfl,
        exec_sbox_of_table (s := s.answer _) h idx⟩
    | none =>
      exact ⟨s.answer ⟨.illegalCmd, 0x00⟩, _, exec_sbox_of_no_table h idx, rfl, exec_sbox_of_no_table (s := s.answer _) h idx⟩

/-! ### The host's copy -/

/-- A step whose line is a copy within the buffers carries it out. -/
theorem step_copyObufToIbuf {s : State} {n : Nat} {rest : List ScriptLine} (h : s.script = .copyObufToIbuf n :: rest)
    (hn : n ≤ BUF_LEN) : step s = .next ((s.setScript rest).setIbuf (s.ibuf.writeRange 0 (s.obuf.readRange 0 n))) := by
  simp [step, h, runLine, withinBuffers, ScriptLine.wellFormed, hn]

/-- The first `n` bytes of one buffer stored at the beginning of another. -/
theorem Memory.read_writeRange_readRange {m : Memory} (hm : m.wf = true) (src : Memory) {n : Nat} (hn : n ≤ BUF_LEN) (a : Nat) :
    (m.writeRange 0 (src.readRange 0 n)).read a = if a < n then src.read a else m.read a := by
  have hfits : 0 + (src.readRange 0 n).length ≤ BUF_LEN := by simpa using hn
  rw [Memory.read_writeRange hm hfits, Nat.sub_zero, Memory.getElem?_readRange]
  by_cases ha : a < n
  · simp [ha]
  · simp [ha]

/-- Settles O38: the copy stores at IBUF's beginning what it reads at OBUF's. -/
theorem hostCopyFeedsTheMixer : Obligations.HostCopyFeedsTheMixer := fun s _ _ hwf hn hscript =>
  ⟨_, step_copyObufToIbuf hscript hn, Memory.read_writeRange_readRange hwf s.obuf hn⟩

/-! ### The wide bus -/

/-- Byte `i` of a list has the bits from `8 * i` on of the list's number; past the end the bits are zero. -/
theorem testBit_bytesToNat {k : Nat} (hk : k < 8) : ∀ (bytes : List Byte) (i : Nat),
    (bytesToNat bytes).testBit (8 * i + k) = (bytes[i]?.getD 0).getLsbD k
  | [], i => by simp [bytesToNat]
  | v :: rest, i => by
    have hsplit : bytesToNat (v :: rest) = 2 ^ 8 * bytesToNat rest + v.toNat := Nat.add_comm _ _
    rw [hsplit, Nat.testBit_two_pow_mul_add _ v.isLt]
    cases i with
    | zero => simp [hk, BitVec.getLsbD]
    | succ j =>
      have hbelow : ¬ 8 * (j + 1) + k < 8 := by omega
      have hrest : 8 * (j + 1) + k - 8 = 8 * j + k := by omega
      rw [if_neg hbelow, hrest, testBit_bytesToNat hk rest j, List.getElem?_cons_succ]

/-- Settles O40, bit by bit: the bus has room for all 256 bytes, so no lane is cut off. -/
theorem busCarriesByteInItsLane : Obligations.BusCarriesByteInItsLane := by
  intro m i hi
  refine BitVec.eq_of_getLsbD_eq fun k hk => ?_
  have hbus : 8 * i + k < 2048 := by omega
  have hbyte : (m.readRange 0 BUF_LEN)[i]? = some (m.read i) := by
    rw [Memory.getElem?_readRange, if_pos hi, Nat.zero_add]
  have hlane : (bytesToNat (m.readRange 0 BUF_LEN)).testBit (8 * i + k) = (m.read i).getLsbD k := by
    rw [testBit_bytesToNat hk, hbyte, Option.getD_some]
  rw [BitVec.getLsbD_extractLsb', Memory.toBus, BitVec.getLsbD_ofNat, hlane]
  simp [hk, hbus]

end Sys2Proof.Machine
end

section
/-! PROOFS of the statements on words and commands (30_encoding.md R61 to R64, R67, R68). The decoder is read off once, one equation
per opcode; both round trips, the opcode map and the list of illegal words follow from these equations. -/

namespace Sys2Proof

open Sys2Proof.Machine

/-! ### The must-be-zero bits -/

@[simp] theorem ifZero_zero {n : Nat} (i : Instr) : ifZero (0 : BitVec n) i = .ok i := if_pos rfl

theorem ifZero_eq_ok {n : Nat} {z : BitVec n} {i j : Instr} (h : ifZero z i = .ok j) : z = 0 ∧ i = j := by
  unfold ifZero at h
  split at h
  · exact ⟨‹_›, Except.ok.inj h⟩
  · cases h

theorem exists_ifZero_eq_error {n : Nat} {z : BitVec n} {i : Instr} : (∃ e, ifZero z i = .error e) ↔ z ≠ 0 := by
  unfold ifZero
  split
  · exact iff_of_false (fun ⟨_, h⟩ => by cases h) (not_not_intro ‹_›)
  · exact iff_of_true ⟨_, rfl⟩ ‹_›

theorem append_eq_zero_iff {n m : Nat} {x : BitVec n} {y : BitVec m} : x ++ y = (0 : BitVec (n + m)) ↔ x = 0 ∧ y = 0 := by
  constructor
  · intro h
    have hx := congrArg (BitVec.extractLsb' m n) h
    have hy := congrArg (BitVec.extractLsb' 0 m) h
    rw [BitVec.extractLsb'_append_eq_left] at hx
    rw [BitVec.extractLsb'_append_eq_right] at hy
    simpa using And.intro hx hy
  · rintro ⟨rfl, rfl⟩
    exact BitVec.zero_append_zero

/-- A byte whose three high bits are zero is its 5-bit index (R62). -/
theorem eq_zero_append_of_high_bits {a : Byte} (h : a.extractLsb' 5 3 = 0) : 0#3 ++ a.extractLsb' 0 5 = a :=
  calc (0#3 ++ a.extractLsb' 0 5 : BitVec 8)
    _ = a.extractLsb' 5 3 ++ a.extractLsb' 0 5 := by rw [h]; rfl
    _ = a.extractLsb' 0 8 := BitVec.extractLsb'_append_extractLsb'_eq_extractLsb' rfl
    _ = a := BitVec.extractLsb'_eq_self

theorem high_bits_eq_zero_iff {a : Byte} : a.extractLsb' 5 3 = 0 ↔ a.toNat < 32 := by
  have ha : a.toNat < 256 := a.isLt
  have hhigh : (a.extractLsb' 5 3).toNat = a.toNat / 32 % 8 := by
    rw [BitVec.extractLsb'_toNat, Nat.shiftRight_eq_div_pow]
  rw [← BitVec.toNat_inj, hhigh, show (0 : BitVec 3).toNat = 0 from rfl]
  omega

/-- PADC's must-be-zero bits as numbers: the index is below 32 and `b` is zero (R63, R64). -/
theorem padc_bits_ne_zero_iff {a b : Byte} : a.extractLsb' 5 3 ++ b ≠ 0 ↔ 32 ≤ a.toNat ∨ b.toNat ≠ 0 := by
  rw [ne_eq, append_eq_zero_iff, high_bits_eq_zero_iff, not_and_or, not_lt, ← BitVec.toNat_inj]
  rfl

/-! ### One equation per opcode -/

section
variable (hasSbox : Bool) (a b : Byte)

theorem decode_pad : decode hasSbox (assemble 0x01 a b) = .ok (.pad a b) := by
  simp [decode]

theorem decode_padc : decode hasSbox (assemble 0x02 a b) =
    ifZero (a.extractLsb' 5 3 ++ b) (.padc (a.extractLsb' 0 5)) := by
  simp [decode]

theorem decode_mix : decode hasSbox (assemble 0x03 a b) = ifZero a (.mix b) := by
  simp [decode]

theorem decode_amul : decode hasSbox (assemble 0x04 a b) = ifZero b (.amul a) := by
  simp [decode]

theorem decode_adiv : decode hasSbox (assemble 0x05 a b) = ifZero b (.adiv a) := by
  simp [decode]

theorem decode_sbox_present : decode true (assemble 0x06 a b) = ifZero b (.sbox a) := by
  simp [decode]

theorem decode_sbox_absent : decode false (assemble 0x06 a b) = .error .tableAbsent := by
  simp [decode]

theorem decode_unassigned {op : Byte} (hop : op.toNat = 0 ∨ 7 ≤ op.toNat) :
    decode hasSbox (assemble op a b) = .error .unassignedOpcode := by
  have hne (k : Byte) (hk : 1 ≤ k.toNat ∧ k.toNat ≤ 6) : op ≠ k := by
    rintro rfl
    omega
  simp [decode, hne]

end

/-- The forms a word can have, by its opcode byte: one of the six opcodes, or one that no command has (R63, R64). -/
theorem word_cases (w : CmdWord) : ∃ a b : Byte,
    (∃ op : Byte, (op.toNat = 0 ∨ 7 ≤ op.toNat) ∧ w = assemble op a b) ∨ w = assemble 0x01 a b ∨ w = assemble 0x02 a b ∨
      w = assemble 0x03 a b ∨ w = assemble 0x04 a b ∨ w = assemble 0x05 a b ∨ w = assemble 0x06 a b := by
  refine ⟨CmdWord.a w, CmdWord.b w, ?_⟩
  by_cases hop : (CmdWord.op w).toNat = 0 ∨ 7 ≤ (CmdWord.op w).toNat
  · exact .inl ⟨_, hop, (assemble_fields w).symm⟩
  · have hcases : CmdWord.op w = 0x01 ∨ CmdWord.op w = 0x02 ∨ CmdWord.op w = 0x03 ∨ CmdWord.op w = 0x04 ∨
        CmdWord.op w = 0x05 ∨ CmdWord.op w = 0x06 := by
      simp only [← BitVec.toNat_inj, BitVec.ofNat_eq_ofNat, BitVec.toNat_ofNat]
      omega
    right
    rcases hcases with h | h | h | h | h | h
    all_goals
      have hw := assemble_fields w
      rw [h] at hw
      simp only [hw, true_or, or_true]

/-! ### Decoding and encoding undo each other -/

theorem decode_encode {hasSbox : Bool} {i : Instr} (hi : i.wellFormed hasSbox = true) : decode hasSbox (encode i) = .ok i := by
  cases i with
  | pad len kb => exact decode_pad hasSbox len kb
  | padc idx =>
    have hhigh : (0#3 ++ idx : BitVec 8).extractLsb' 5 3 = 0 := BitVec.extractLsb'_append_eq_left
    have hlow : (0#3 ++ idx : BitVec 8).extractLsb' 0 5 = idx := BitVec.extractLsb'_append_eq_right
    rw [encode, decode_padc, append_eq_zero_iff.mpr ⟨hhigh, rfl⟩, hlow, ifZero_zero]
  | mix kb => exact (decode_mix hasSbox 0x00 kb).trans (ifZero_zero _)
  | amul x => exact (decode_amul hasSbox x 0x00).trans (ifZero_zero _)
  | adiv x => exact (decode_adiv hasSbox x 0x00).trans (ifZero_zero _)
  | sbox idx =>
    obtain rfl : hasSbox = true := hi
    exact (decode_sbox_present idx 0x00).trans (ifZero_zero _)

/-- Settles O2: in the word of a command the must-be-zero bits are zero and the operands stand where the decoder reads them. -/
theorem decodeInvertsEncode : Obligations.DecodeInvertsEncode := fun _ _ => decode_encode

/-- The inversion of the decoder: a word that decodes is the word of a command of the build. -/
theorem encode_of_decode {hasSbox : Bool} {w : CmdWord} {i : Instr} (h : decode hasSbox w = .ok i) :
    encode i = w ∧ i.wellFormed hasSbox = true := by
  obtain ⟨a, b, ⟨op, hop, rfl⟩ | rfl | rfl | rfl | rfl | rfl | rfl⟩ := word_cases w
  · cases (decode_unassigned hasSbox a b hop).symm.trans h
  · cases (decode_pad hasSbox a b).symm.trans h
    exact ⟨rfl, rfl⟩
  · obtain ⟨hzero, rfl⟩ := ifZero_eq_ok ((decode_padc hasSbox a b).symm.trans h)
    obtain ⟨hhigh, rfl⟩ := append_eq_zero_iff.mp hzero
    exact ⟨congrArg (assemble 0x02 · 0x00) (eq_zero_append_of_high_bits hhigh), rfl⟩
  · obtain ⟨rfl, rfl⟩ := ifZero_eq_ok ((decode_mix hasSbox a b).symm.trans h)
    exact ⟨rfl, rfl⟩
  · obtain ⟨rfl, rfl⟩ := ifZero_eq_ok ((decode_amul hasSbox a b).symm.trans h)
    exact ⟨rfl, rfl⟩
  · obtain ⟨rfl, rfl⟩ := ifZero_eq_ok ((decode_adiv hasSbox a b).symm.trans h)
    exact ⟨rfl, rfl⟩
  · cases hasSbox with
    | true =>
      obtain ⟨rfl, rfl⟩ := ifZero_eq_ok ((decode_sbox_present a b).symm.trans h)
      exact ⟨rfl, rfl⟩
    | false => cases (decode_sbox_absent a b).symm.trans h

/-- Settles O3, opcode by opcode. -/
theorem encodeInvertsDecode : Obligations.EncodeInvertsDecode := fun _ _ _ => encode_of_decode

/-! ### The opcode map -/

theorem row_mem_opcodeRows (i : Instr) : i.row ∈ opcodeRows := by
  cases i <;> simp [opcodeRows, Instr.row]

theorem row_selects_encode (i : Instr) : i.row.selects (encode i) = true := by
  have hrow : Laws.RowOfWord.Statement i := by
    cases i with
    | pad len kb => exact Laws.RowOfWord.pad len kb
    | padc idx => exact Laws.RowOfWord.padc idx
    | mix kb => exact Laws.RowOfWord.mix kb
    | amul x => exact Laws.RowOfWord.amul x
    | adiv x => exact Laws.RowOfWord.adiv x
    | sbox idx => exact Laws.RowOfWord.sbox idx
  exact (hrow i.row (row_mem_opcodeRows i)).mpr rfl

theorem and_all_bits (x : Byte) : x &&& 0xFF = x := BitVec.and_allOnes

/-- A byte that PADC's mask finds zero has its three high bits zero. -/
theorem high_bits_of_mask {a : Byte} (h : a &&& 0xE0 = 0x00) : a.extractLsb' 5 3 = 0 := by
  have hand := congrArg (BitVec.extractLsb' 5 3) h
  rwa [BitVec.extractLsb'_and, show BitVec.extractLsb' 5 3 (0xE0 : Byte) = BitVec.allOnes 3 from rfl, BitVec.and_allOnes] at hand

/-- What a row selects is the word of a command of that row: the mask leaves only operand bits free. -/
theorem exists_encode_of_selects {w : CmdWord} {r : OpcodeRow} (hr : r ∈ opcodeRows) (h : r.selects w = true) :
    ∃ i, encode i = w ∧ i.row = r := by
  obtain ⟨op, a, b, rfl⟩ : ∃ op a b, assemble op a b = w := ⟨_, _, _, assemble_fields w⟩
  rw [Laws.opcodeRows_by_fields] at hr
  simp only [List.mem_cons, List.not_mem_nil, or_false] at hr
  rcases hr with rfl | rfl | rfl | rfl | rfl | rfl
  all_goals
    obtain ⟨hop, ha, hb⟩ := (selects_assemble ..).mp h
    simp only [and_all_bits] at hop ha hb
    subst hop
  · exact ⟨.pad a b, rfl, rfl⟩
  · subst hb
    exact ⟨.padc (a.extractLsb' 0 5), congrArg (assemble 0x02 · 0x00) (eq_zero_append_of_high_bits (high_bits_of_mask ha)), rfl⟩
  · subst ha
    exact ⟨.mix b, rfl, rfl⟩
  · subst hb
    exact ⟨.amul a, rfl, rfl⟩
  · subst hb
    exact ⟨.adiv a, rfl, rfl⟩
  · subst hb
    exact ⟨.sbox a, rfl, rfl⟩

/-- In a build with the table every command exists (R117). -/
theorem wellFormed_with_table (i : Instr) : i.wellFormed true = true := by
  cases i <;> rfl

theorem decode_of_selects {w : CmdWord} {r : OpcodeRow} (hr : r ∈ opcodeRows) (h : r.selects w = true) :
    ∃ i, decode true w = .ok i ∧ i.row = r := by
  obtain ⟨i, rfl, hrow⟩ := exists_encode_of_selects hr h
  exact ⟨i, decode_encode (wellFormed_with_table i), hrow⟩

/-- Settles O4: a word in two rows would decode to a command of either row, and it decodes to one. -/
theorem opcodeRowsSelectTheCommand : Obligations.OpcodeRowsSelectTheCommand := by
  refine ⟨rfl, fun w i h => ?_, fun w r => decode_of_selects, fun w r₁ hr₁ r₂ hr₂ h₁ h₂ => ?_⟩
  · obtain ⟨rfl, -⟩ := encode_of_decode h
    exact row_selects_encode i
  · obtain ⟨i₁, hi₁, rfl⟩ := decode_of_selects hr₁ h₁
    obtain ⟨i₂, hi₂, rfl⟩ := decode_of_selects hr₂ h₂
    cases hi₁.symm.trans hi₂
    rfl

/-! ### The illegal words -/

theorem listedIllegal_assemble {hasSbox : Bool} {op a b : Byte} :
    listedIllegal hasSbox (assemble op a b) ↔ listedFields hasSbox op.toNat a.toNat b.toNat := by
  change listedFields hasSbox (CmdWord.op (assemble op a b)).toNat (CmdWord.a (assemble op a b)).toNat
    (CmdWord.b (assemble op a b)).toNat ↔ _
  rw [op_assemble, a_assemble, b_assemble]

theorem toNat_ne_zero_iff {x : Byte} : x ≠ 0 ↔ x.toNat ≠ 0 := not_congr BitVec.toNat_inj.symm

/-- R64's list, opcode by opcode. -/
theorem listedIllegal_iff_decode_error (hasSbox : Bool) (w : CmdWord) :
    listedIllegal hasSbox w ↔ ∃ e, decode hasSbox w = .error e := by
  obtain ⟨a, b, ⟨op, hop, rfl⟩ | rfl | rfl | rfl | rfl | rfl | rfl⟩ := word_cases w
  all_goals rw [listedIllegal_assemble, listedFields]
  · rw [decode_unassigned hasSbox a b hop]
    exact iff_of_true (by omega) ⟨_, rfl⟩
  · rw [decode_pad]
    exact iff_of_false (by simp) (by simp)
  · rw [decode_padc, exists_ifZero_eq_error, padc_bits_ne_zero_iff]
    simp
  · rw [decode_mix, exists_ifZero_eq_error, toNat_ne_zero_iff]
    simp
  · rw [decode_amul, exists_ifZero_eq_error, toNat_ne_zero_iff]
    simp
  · rw [decode_adiv, exists_ifZero_eq_error, toNat_ne_zero_iff]
    simp
  · cases hasSbox with
    | true =>
      rw [decode_sbox_present, exists_ifZero_eq_error, toNat_ne_zero_iff]
      simp
    | false =>
      rw [decode_sbox_absent]
      exact iff_of_true (by simp) ⟨_, rfl⟩

end Sys2Proof
end

section
/-! PROOFS of the statements on the step, the response word and the host's stores (30_encoding.md R60, R64, R65, R67,
70_reset_and_hazards.md R147). They rest on `runCommand_of_decode` and `runCommand_of_illegal`: decoding with the full map and
leaving the table's absence to SBOX is decoding with the build's own map (R68). -/

namespace Sys2Proof.Machine

/-! ### The word on CMD -/

theorem runCommand_encode (i : Instr) (s : State) : runCommand (encode i) s = exec i s := by
  rw [runCommand, decode_encode (wellFormed_with_table i)]

theorem runCommand_of_decode {s : State} {w : CmdWord} {i : Instr} (h : decode s.build.hasSbox w = .ok i) :
    runCommand w s = exec i s := by
  obtain ⟨rfl, -⟩ := encode_of_decode h
  exact runCommand_encode i s

/-- Settles O6: the line is taken off and its word decoded. -/
theorem stepRunsTheDecodedCommand : Obligations.StepRunsTheDecodedCommand := fun _ _ _ _ hscript hdecode =>
  (step_command hscript).trans (runCommand_of_decode hdecode)

theorem wordOfBits_toNat (w : CmdWord) : wordOfBits 24 w.toNat = w := by
  rw [wordOfBits, Nat.mod_eq_of_lt w.isLt, BitVec.ofNat_toNat, BitVec.setWidth_eq]

/-- Settles O7: the word put in front is the command's own, and taking it off again leaves the script as it was. -/
theorem presentedWordRunsNext : Obligations.PresentedWordRunsNext := by
  intro s i _
  rw [State.withFetchWord, wordOfBits_toNat, step_command (State.pushLine_script s _)]
  exact runCommand_encode i s

/-! ### Words that end with an error -/

/-- Only SBOX can be missing from a build. -/
theorem eq_sbox_of_not_wellFormed {hasSbox : Bool} {i : Instr} (h : i.wellFormed hasSbox = false) :
    ∃ idx, i = .sbox idx ∧ hasSbox = false := by
  cases i with
  | sbox idx => exact ⟨idx, rfl, h⟩
  | _ => cases h

/-- A word the build has no command for ends with ILLEGAL_CMD (R64, R122): it decodes in no build, or it is SBOX's and the table
is absent. -/
theorem runCommand_of_illegal {s : State} {w : CmdWord} {e : IllegalWord} (h : decode s.build.hasSbox w = .error e) :
    runCommand w s = finish (.raised .illegalCmd) s := by
  cases hfull : decode true w with
  | error e' => rw [runCommand, hfull]
  | ok i =>
    obtain ⟨rfl, -⟩ := encode_of_decode hfull
    have habsent : i.wellFormed s.build.hasSbox = false := by
      refine Bool.eq_false_iff.mpr fun hi => ?_
      cases (decode_encode hi).symm.trans h
    obtain ⟨idx, rfl, hnone⟩ := eq_sbox_of_not_wellFormed habsent
    have htable : s.build.sbox = none := by simpa [Build.hasSbox] using hnone
    exact (runCommand_encode _ s).trans (exec_sbox_of_no_table htable idx)

theorem exec_pad_eq (len kb : Byte) (s : State) :
    exec (.pad len kb) s = finish (doneOrRaise (padKey s.build (masterKey s len) kb.toNat) s) s := rfl

theorem exec_mix_eq (kb : Byte) (s : State) : exec (.mix kb) s = finish (doneOrRaise (mixKey (paddedKey s kb)) s) s := rfl

theorem finish_doneOrRaise_error (e : OpError) (s : State) :
    finish (doneOrRaise (.error e) s) s = .next (s.answer ⟨e.status, 0x00⟩) := rfl

/-- PAD with forbidden lengths stores nothing, whichever check fails (R82). -/
theorem exec_pad_of_not_legal {len kb : Byte} (h : ¬ padLegal len kb) (s : State) :
    exec (.pad len kb) s = .next (s.answer ⟨.invalidKeyLength, 0x00⟩) := by
  rcases padKey_cases s.build (masterKey s len) kb.toNat with ⟨-, he⟩ | ⟨-, -, he⟩ | ⟨hle, hpad, -⟩
  · rw [exec_pad_eq, he, finish_doneOrRaise_error, OpError.status]
  · rw [exec_pad_eq, he, finish_doneOrRaise_error, OpError.status]
  · rw [length_masterKey] at hle hpad
    exact absurd ⟨hle, hpad⟩ h

/-- MIX of fewer than two bytes stores nothing (R90). -/
theorem exec_mix_of_lt_two {kb : Byte} (h : kb.toNat < 2) (s : State) :
    exec (.mix kb) s = .next (s.answer ⟨.invalidKeyLength, 0x00⟩) := by
  rcases mixKey_cases (paddedKey s kb) with ⟨-, he⟩ | ⟨_, htwo, -, -⟩
  · rw [exec_mix_eq, he, finish_doneOrRaise_error, OpError.status]
  · rw [length_paddedKey] at htwo
    omega

/-- Settles O5: R64's list is where the decoder fails; the forbidden lengths are the commands' own to reject. -/
theorem illegalWordsAreExactlyTheListed : Obligations.IllegalWordsAreExactlyTheListed := by
  refine ⟨listedIllegal_iff_decode_error, fun s w rest hscript hlisted => ?_, fun s len kb rest hscript hlen => ?_,
    fun s kb rest hscript hlen => ?_⟩
  · obtain ⟨e, he⟩ := (listedIllegal_iff_decode_error _ _).mp hlisted
    exact (step_command hscript).trans (runCommand_of_illegal (s := s.setScript rest) he)
  · exact (step_command hscript).trans ((runCommand_encode (.pad len kb) _).trans (exec_pad_of_not_legal hlen _))
  · exact (step_command hscript).trans ((runCommand_encode (.mix kb) _).trans (exec_mix_of_lt_two hlen _))

/-! ### The response word -/

/-- The fourth code is never produced (R120). -/
theorem Status.code_ne_three (status : Status) : status.code ≠ 3 := by
  cases status <;> decide

theorem Response.toWord_status (r : Response) : r.toWord.extractLsb' 8 2 = r.status.code := BitVec.extractLsb'_append_eq_left

theorem Response.toWord_res (r : Response) : r.toWord.extractLsb' 0 8 = r.res := BitVec.extractLsb'_append_eq_right

/-- An operation that ends with `done` or `raise` answers no result byte (R65). -/
theorem res_response_doneOrRaise (r : Except OpError (List Byte)) (s : State) : (doneOrRaise r s).response.res = 0x00 := by
  cases r with
  | ok bytes => rfl
  | error e => rfl

/-- Every command ends, and PAD and MIX end without a result byte. -/
theorem exec_eq_finish_with_res (i : Instr) (s : State) : ∃ r, exec i s = finish r s ∧
    ((∃ len kb, i = .pad len kb) ∨ (∃ kb, i = .mix kb) → r.response.res = 0x00) := by
  cases i with
  | pad len kb => exact ⟨_, exec_pad_eq len kb s, fun _ => res_response_doneOrRaise _ s⟩
  | mix kb => exact ⟨_, exec_mix_eq kb s, fun _ => res_response_doneOrRaise _ s⟩
  | _ => exact ⟨_, rfl, by simp⟩

/-- Settles O13: the word's two fields are the response's, and an operation that does not return a byte answers zero. -/
theorem responseWordLayout : Obligations.ResponseWordLayout := by
  refine ⟨fun r => ?_, fun i s => ?_⟩
  · rw [r.toWord_status, r.toWord_res]
    refine ⟨?_, rfl, r.status.code_ne_three⟩
    cases r.status with
    | ok => rfl
    | invalidKeyLength => rfl
    | illegalCmd => rfl
  · obtain ⟨r, hr, hres⟩ := exec_eq_finish_with_res i s
    exact ⟨s.complete r, r.response, hr, rfl, r.res_response_of_error, hres⟩

/-! ### The host's stores -/

theorem step_storeIbuf {s : State} {m : Nat} {bytes : List Byte} {rest : List ScriptLine}
    (h : s.script = .storeIbuf m bytes :: rest) (hfits : m + bytes.length ≤ BUF_LEN) :
    step s = .next ((s.setScript rest).setIbuf (s.ibuf.writeRange m bytes)) := by
  simp [step, h, runLine, withinBuffers, ScriptLine.wellFormed, hfits]

theorem step_storeObuf {s : State} {m : Nat} {bytes : List Byte} {rest : List ScriptLine}
    (h : s.script = .storeObuf m bytes :: rest) (hfits : m + bytes.length ≤ BUF_LEN) :
    step s = .next ((s.setScript rest).setObuf (s.obuf.writeRange m bytes)) := by
  simp [step, h, runLine, withinBuffers, ScriptLine.wellFormed, hfits]

/-- The stored bytes at their indices, and every other index as before. -/
theorem Memory.read_writeRange_getElem {b : Memory} (hb : b.wf = true) {m : Nat} {bytes : List Byte}
    (hfits : m + bytes.length ≤ BUF_LEN) (a : Nat) : (b.writeRange m bytes).read a =
      if h : m ≤ a ∧ a - m < bytes.length then bytes[a - m] else b.read a := by
  rw [Memory.read_writeRange hb hfits]
  by_cases hm : m ≤ a
  · by_cases hlen : a - m < bytes.length
    · simp [hm, hlen]
    · simp [hm, hlen]
  · simp [hm]

/-- Settles O37: a store within the buffer is carried out, and it is the buffer's own store. -/
theorem hostStoresIntoBuffers : Obligations.HostStoresIntoBuffers := fun _ _ _ _ hfits =>
  ⟨fun hwf hscript => ⟨_, step_storeIbuf hscript hfits, Memory.read_writeRange_getElem hwf hfits⟩,
   fun hwf hscript => ⟨_, step_storeObuf hscript hfits, Memory.read_writeRange_getElem hwf hfits⟩⟩

end Sys2Proof.Machine
end

section
/-! PROOFS of the statements on the Key Padder (40_key_padder.md R80 to R82). They rest on `exec_pad_of_legal`, which names the
OBUF a legal PAD leaves, and on what that buffer reads as below `L`, from `L` to `kb`, and from `kb` on. -/

namespace Sys2Proof.Machine

/-! ### The constant's bytes -/

/-- Settles O21: PADC's meaning is the read of the ROM. -/
theorem padcReturnsTheConstantByte : Obligations.PadcReturnsTheConstantByte := fun _ _ _ => rfl

theorem getElem?_filler (b : Build) {n j : Nat} (hj : j < PAD_LEN) (hjn : j < n) : (filler b n)[j]? = some b.padConst[j] := by
  rw [filler, List.getElem?_take_of_lt hjn, Vector.getElem?_toList, Vector.getElem?_eq_getElem hj]

/-! ### OBUF after a legal PAD -/

/-- OBUF with the master key and its filler stored from index 0 (R80). -/
def padObuf (len kb : Byte) (s : State) : Memory :=
  s.obuf.writeRange 0 (masterKey s len ++ filler s.build (kb.toNat - len.toNat))

theorem exec_pad_of_legal {len kb : Byte} (h : padLegal len kb) (s : State) :
    exec (.pad len kb) s = .next ((s.setObuf (padObuf len kb s)).answer ⟨.ok, 0x00⟩) := by
  obtain ⟨hle, hpad⟩ := h
  rcases padKey_cases s.build (masterKey s len) kb.toNat with ⟨hlt, -⟩ | ⟨-, hlong, -⟩ | ⟨-, -, hok⟩
  · rw [length_masterKey] at hlt
    omega
  · rw [length_masterKey] at hlong
    omega
  · rw [length_masterKey] at hok
    rw [exec_pad_eq, hok]
    rfl

section
variable {len kb : Byte} {s : State} (hwf : s.obuf.wf = true) (hlegal : padLegal len kb)
include hwf hlegal

/-- The buffer reads as the padded key where the key has a byte, and as before elsewhere. -/
theorem read_padObuf (a : Nat) : (padObuf len kb s).read a =
    ((masterKey s len ++ filler s.build (kb.toNat - len.toNat))[a]?).getD (s.obuf.read a) := by
  obtain ⟨hle, hpad⟩ := hlegal
  have hfits : 0 + (masterKey s len ++ filler s.build (kb.toNat - len.toNat)).length ≤ BUF_LEN := by
    rw [List.length_append, length_masterKey, length_filler]
    have hkb : kb.toNat < BUF_LEN := kb.isLt
    omega
  rw [padObuf, Memory.read_writeRange hwf hfits, if_pos (Nat.zero_le a), Nat.sub_zero]

theorem read_padObuf_key {i : Nat} (hi : i < len.toNat) : (padObuf len kb s).read i = s.ibuf.read i := by
  have hkey : (masterKey s len)[i]? = some (s.ibuf.read i) := by
    rw [masterKey, Memory.getElem?_readRange, if_pos hi, Nat.zero_add]
  rw [read_padObuf hwf hlegal, List.getElem?_append_left (by simpa using hi), hkey, Option.getD_some]

theorem read_padObuf_filler {j : Nat} (hj : j < PAD_LEN) (hjn : j < kb.toNat - len.toNat) :
    (padObuf len kb s).read (len.toNat + j) = s.build.padConst[j] := by
  rw [read_padObuf hwf hlegal, List.getElem?_append_right (by simp), length_masterKey, Nat.add_sub_cancel_left,
    getElem?_filler s.build hj hjn, Option.getD_some]

theorem read_padObuf_above {a : Nat} (ha : kb.toNat ≤ a) : (padObuf len kb s).read a = s.obuf.read a := by
  have hend : (masterKey s len ++ filler s.build (kb.toNat - len.toNat)).length ≤ a := by
    obtain ⟨hle, -⟩ := hlegal
    rw [List.length_append, length_masterKey, length_filler]
    omega
  rw [read_padObuf hwf hlegal, List.getElem?_eq_none hend, Option.getD_none]

end

/-! ### The statements on PAD -/

/-- Settles O20: the lengths are forbidden in the first two clauses and legal in the third. -/
theorem padPadsTheMasterKey : Obligations.PadPadsTheMasterKey := by
  intro len kb s hwf
  refine ⟨fun hlt => ?_, fun _ hlong => ?_, fun hle hpad => ?_⟩
  · exact exec_pad_of_not_legal (fun ⟨hle, _⟩ => Nat.not_le_of_lt hlt hle) s
  · exact exec_pad_of_not_legal (fun ⟨_, hpad⟩ => Nat.not_le_of_lt hlong hpad) s
  · have hlegal : padLegal len kb := ⟨hle, hpad⟩
    exact ⟨padObuf len kb s, exec_pad_of_legal hlegal s, fun _ => read_padObuf_key hwf hlegal,
      fun _ => read_padObuf_filler hwf hlegal, fun _ => read_padObuf_above hwf hlegal⟩

/-- Settles O22: the filler byte and PADC's answer are the same byte of the constant. -/
theorem padFillerIsWhatPadcReturns : Obligations.PadFillerIsWhatPadcReturns := by
  intro len kb idx s hwf hlegal hidx
  refine ⟨_, exec_pad_of_legal hlegal s, ?_⟩
  rw [State.answer_obuf, State.setObuf_obuf, read_padObuf_filler hwf hlegal idx.isLt hidx]
  exact padcReturnsTheConstantByte idx s idx.isLt

end Sys2Proof.Machine
end

section
/-! PROOFS of the statements on the Diffusion Mixer (41_diffusion_mixer.md R90 to R94). Both seeds in front make R90 one loop over
the whole key (`mixKey_of_two_le`). The recurrence R91 on the OBUF that MIX leaves is stated once, `FollowsMix`; it alone
determines the bytes, which is what causality says. -/

namespace Sys2Proof.Machine

/-! ### The loop on byte lists -/

/-- The first two bytes of R90 are two turns of its loop, with the seeds as the bytes before (R91). -/
theorem mixKey_of_two_le : ∀ {key : List Byte}, 2 ≤ key.length → mixKey key = .ok (mixLoop C2 C1 key)
  | [], h => absurd h (by simp)
  | [_], h => absurd h (by simp)
  | _ :: _ :: _, _ => rfl

theorem length_unmixFrom : ∀ (out : List Byte) (p2 p1 : Byte), (unmixFrom p2 p1 out).length = out.length
  | [], _, _ => rfl
  | o :: rest, _, p1 => congrArg (· + 1) (length_unmixFrom rest p1 o)

theorem mixLoop_unmixFrom : ∀ (out : List Byte) (p2 p1 : Byte), mixLoop p2 p1 (unmixFrom p2 p1 out) = out
  | [], _, _ => rfl
  | o :: rest, p2, p1 => by rw [unmixFrom, mixLoop, xor_cancel_right, mixLoop_unmixFrom rest p1 o]

theorem unmixFrom_mixLoop : ∀ (key : List Byte) (p2 p1 : Byte), unmixFrom p2 p1 (mixLoop p2 p1 key) = key
  | [], _, _ => rfl
  | x :: rest, p2, p1 => by rw [mixLoop, unmixFrom, xor_cancel_right, unmixFrom_mixLoop rest]

/-- Settles O26: the loop and the formula of R93 undo each other from any two bytes before. -/
theorem mixIsInvertible : Obligations.MixIsInvertible := by
  refine ⟨fun out hlen => ?_, fun key hlen => ?_⟩
  · rw [mixKey_of_two_le (by rwa [length_unmixFrom]), mixLoop_unmixFrom]
  · exact ⟨mixLoop C2 C1 key, mixKey_of_two_le hlen, length_mixLoop key C2 C1, unmixFrom_mixLoop key C2 C1⟩

/-- An output byte from its input byte and the two output bytes before it, `p2` and `p1` standing in front of the output. -/
theorem getElem_mixLoop : ∀ (xs : List Byte) (p2 p1 : Byte) (i : Nat) (hi : i < xs.length),
    (mixLoop p2 p1 xs)[i]'(by rwa [length_mixLoop]) =
      xs[i] ^^^ ((p1 :: mixLoop p2 p1 xs)[i]'(by simp; omega) + (p2 :: p1 :: mixLoop p2 p1 xs)[i]'(by simp; omega))
  | _ :: _, _, _, 0, _ => rfl
  | x :: rest, p2, p1, i + 1, hi => getElem_mixLoop rest p1 (x ^^^ (p1 + p2)) i (Nat.lt_of_succ_lt_succ hi)

/-! ### OBUF after MIX -/

/-- The bytes MIX stores (R90). -/
def mixedKey (kb : Byte) (s : State) : List Byte := mixLoop C2 C1 (paddedKey s kb)

@[simp] theorem length_mixedKey (kb : Byte) (s : State) : (mixedKey kb s).length = kb.toNat :=
  (length_mixLoop _ _ _).trans (length_paddedKey s kb)

/-- OBUF with the mixed key stored from index 0 (R90). -/
def mixObuf (kb : Byte) (s : State) : Memory := s.obuf.writeRange 0 (mixedKey kb s)

theorem exec_mix_of_two_le {kb : Byte} (h : 2 ≤ kb.toNat) (s : State) :
    exec (.mix kb) s = .next ((s.setObuf (mixObuf kb s)).answer ⟨.ok, 0x00⟩) := by
  rw [exec_mix_eq, mixKey_of_two_le (by rwa [length_paddedKey])]
  rfl

/-- The byte-serial mixer stores what the loop gives, whatever its registers and buffer hold (R94). -/
theorem obuf_run_serialMixer (ibuf : Memory) : ∀ (n i : Nat) (p1 p2 : Byte) (obuf : Memory),
    (SerialMixer.run ibuf i n ⟨p1, p2, obuf⟩).obuf = obuf.writeRange i (mixLoop p2 p1 (ibuf.readRange i n))
  | 0, _, _, _, _ => rfl
  | n + 1, i, p1, p2, _ => obuf_run_serialMixer ibuf n (i + 1) (ibuf.read i ^^^ (p1 + p2)) p1 _

/-- Settles O27: started with the seeds, the two registers hold the two output bytes before the next. -/
theorem byteSerialMixerComputesMix : Obligations.ByteSerialMixerComputesMix := by
  intro kb s hkb
  rw [obuf_run_serialMixer]
  exact exec_mix_of_two_le hkb s

theorem outputBefore_of_le {m : Memory} {i k : Nat} (h : k ≤ i) : outputBefore m i k = m.read (i - k) := if_pos h

section
variable {kb : Byte} {s : State} (hwf : s.obuf.wf = true)
include hwf

/-- The buffer reads as the mixed key where the key has a byte, and as before elsewhere. -/
theorem read_mixObuf (a : Nat) : (mixObuf kb s).read a = ((mixedKey kb s)[a]?).getD (s.obuf.read a) := by
  have hfits : 0 + (mixedKey kb s).length ≤ BUF_LEN := by
    rw [length_mixedKey, Nat.zero_add]
    exact kb.isLt.le
  rw [mixObuf, Memory.read_writeRange hwf hfits, if_pos (Nat.zero_le a), Nat.sub_zero]

theorem read_mixObuf_below {i : Nat} (hi : i < (mixedKey kb s).length) : (mixObuf kb s).read i = (mixedKey kb s)[i] := by
  rw [read_mixObuf hwf, List.getElem?_eq_getElem hi, Option.getD_some]

theorem read_mixObuf_above {a : Nat} (ha : kb.toNat ≤ a) : (mixObuf kb s).read a = s.obuf.read a := by
  rw [read_mixObuf hwf, List.getElem?_eq_none (by rwa [length_mixedKey]), Option.getD_none]

theorem outputBefore_one_mixObuf {i : Nat} (hi : i < (C1 :: mixedKey kb s).length) :
    outputBefore (mixObuf kb s) i 1 = (C1 :: mixedKey kb s)[i] := by
  cases i with
  | zero => rfl
  | succ j =>
    rw [outputBefore_of_le (Nat.le_add_left 1 j)]
    exact read_mixObuf_below hwf (Nat.lt_of_succ_lt_succ hi)

theorem outputBefore_two_mixObuf {i : Nat} (hi : i < (C2 :: C1 :: mixedKey kb s).length) :
    outputBefore (mixObuf kb s) i 2 = (C2 :: C1 :: mixedKey kb s)[i] := by
  match i with
  | 0 => rfl
  | 1 => rfl
  | j + 2 =>
    rw [outputBefore_of_le (Nat.le_add_left 2 j)]
    exact read_mixObuf_below hwf (Nat.lt_of_succ_lt_succ (Nat.lt_of_succ_lt_succ hi))

end

/-! ### The recurrence on buffers -/

/-- The first `n` bytes of `m` follow R91's recurrence on the bytes of `ibuf`. -/
def Memory.FollowsMix (m ibuf : Memory) (n : Nat) : Prop :=
  ∀ i < n, m.read i = ibuf.read i ^^^ (outputBefore m i 1 + outputBefore m i 2)

theorem mixObuf_followsMix {kb : Byte} {s : State} (hwf : s.obuf.wf = true) : (mixObuf kb s).FollowsMix s.ibuf kb.toNat := by
  intro i hi
  have hlen : i < (mixedKey kb s).length := by rwa [length_mixedKey]
  have hkey : i < (paddedKey s kb).length := by rwa [length_paddedKey]
  have hin : (paddedKey s kb)[i] = s.ibuf.read i := by
    rw [List.getElem_eq_iff, paddedKey, Memory.getElem?_readRange, if_pos hi, Nat.zero_add]
  rw [read_mixObuf_below hwf hlen, outputBefore_one_mixObuf hwf (Nat.lt_succ_of_lt hlen),
    outputBefore_two_mixObuf hwf (Nat.lt_succ_of_lt (Nat.lt_succ_of_lt hlen)), ← hin]
  exact getElem_mixLoop _ C2 C1 i hkey

/-- Settles O23: the bytes at 0, 1 and from 2 on are cases of the one recurrence with the seeds in front. -/
theorem mixFollowsTheRecurrence : Obligations.MixFollowsTheRecurrence := by
  intro kb s hwf
  refine ⟨fun hlt => exec_mix_of_lt_two hlt s, fun htwo => ?_⟩
  have hrec : (mixObuf kb s).FollowsMix s.ibuf kb.toNat := mixObuf_followsMix hwf
  refine ⟨mixObuf kb s, exec_mix_of_two_le htwo s, hrec 0 (by omega), hrec 1 htwo, fun i hi hlt => ?_, hrec,
    fun _ => read_mixObuf_above hwf⟩
  have h := hrec i hlt
  rwa [outputBefore_of_le (by omega), outputBefore_of_le hi] at h

/-- The output bytes before an index are read below it, or are seeds. -/
theorem outputBefore_congr {m₁ m₂ : Memory} {i k : Nat} (hk : 0 < k) (h : ∀ a < i, m₁.read a = m₂.read a) :
    outputBefore m₁ i k = outputBefore m₂ i k := by
  unfold outputBefore
  split
  · exact h (i - k) (by omega)
  · rfl

section
variable {m₁ m₂ ibuf₁ ibuf₂ : Memory} {n : Nat} (h₁ : m₁.FollowsMix ibuf₁ n) (h₂ : m₂.FollowsMix ibuf₂ n)
include h₁ h₂

/-- Where the outputs below agree, the outputs agree exactly if the inputs do. -/
theorem Memory.FollowsMix.read_eq_iff {i : Nat} (hi : i < n) (hbelow : ∀ a < i, m₁.read a = m₂.read a) :
    m₁.read i = m₂.read i ↔ ibuf₁.read i = ibuf₂.read i := by
  rw [h₁ i hi, h₂ i hi, outputBefore_congr Nat.one_pos hbelow, outputBefore_congr Nat.two_pos hbelow]
  exact BitVec.xor_left_inj _

/-- Inputs that agree below `j` have outputs that agree below `j`. -/
theorem Memory.FollowsMix.read_eq_below {j : Nat} (hj : j ≤ n) (hin : ∀ a < j, ibuf₁.read a = ibuf₂.read a) :
    ∀ a < j, m₁.read a = m₂.read a := by
  intro a
  induction a using Nat.strong_induction_on with
  | _ a ih =>
    intro ha
    exact (h₁.read_eq_iff h₂ (by omega) fun b hb => ih b hb (by omega)).mpr (hin a ha)

end

/-- Settles O25: both parts compare two buffers that follow the recurrence, the second on one input buffer. -/
theorem mixIsCausal : Obligations.MixIsCausal := by
  refine ⟨fun kb s₁ s₂ j hwf₁ hwf₂ hkb hj hin => ?_, fun m kb s hwf hm hle => ?_⟩
  · have h₁ : (mixObuf kb s₁).FollowsMix s₁.ibuf kb.toNat := mixObuf_followsMix hwf₁
    have h₂ : (mixObuf kb s₂).FollowsMix s₂.ibuf kb.toNat := mixObuf_followsMix hwf₂
    have hbelow := h₁.read_eq_below h₂ hj.le hin
    exact ⟨_, _, exec_mix_of_two_le hkb s₁, exec_mix_of_two_le hkb s₂, hbelow, h₁.read_eq_iff h₂ hj hbelow⟩
  · have hshort : (mixObuf m s).FollowsMix s.ibuf m.toNat := mixObuf_followsMix hwf
    have hlong : (mixObuf kb s).FollowsMix s.ibuf m.toNat := fun i hi => mixObuf_followsMix hwf i (hi.trans_le hle)
    exact ⟨_, _, exec_mix_of_two_le hm s, exec_mix_of_two_le (hm.trans hle) s,
      hshort.read_eq_below hlong le_rfl fun _ _ => rfl⟩

end Sys2Proof.Machine
end

section
/-! PROOFS of the statements on the GF(2^8) unit (42_gf_alpha.md R100 to R107). Both maps are read off once by value and once
bit by bit; the closed forms, the round trips and the coefficients in GF(2)[X] follow from the bits, linearity from the closed
forms. -/

namespace Sys2Proof.Machine

/-! ### The commands' answers -/

theorem exec_amul_eq (x : Byte) (s : State) :
    exec (.amul x) s = .next (s.answer ⟨.ok, alphaMul s.build.irredPoly x⟩) := rfl

theorem exec_adiv_eq (x : Byte) (s : State) :
    exec (.adiv x) s = .next (s.answer ⟨.ok, alphaDiv s.build.irredPoly x⟩) := rfl

/-! ### The answers by value -/

theorem getLsbD_seven_iff (x : Byte) : x.getLsbD 7 = true ↔ 128 ≤ x.toNat := by
  rw [← decide_eq_true_iff (p := 128 ≤ x.toNat)]
  exact Eq.congr_left (BitVec.msb_eq_decide x)

theorem getLsbD_zero_iff (x : Byte) : x.getLsbD 0 = true ↔ x.toNat % 2 = 1 := by
  rw [BitVec.getLsbD, Nat.testBit_zero, decide_eq_true_iff]

theorem toNat_alphaMul (p : Poly9) (x : Byte) :
    (alphaMul p x).toNat = if 128 ≤ x.toNat then ((2 * x.toNat) ^^^ p.toNat) % 256 else 2 * x.toNat := by
  have hx : x.toNat < 256 := x.isLt
  have hdouble : (x.setWidth 9 <<< 1).toNat = 2 * x.toNat := by
    rw [BitVec.toNat_shiftLeft, BitVec.toNat_setWidth, Nat.shiftLeft_eq]
    omega
  simp only [alphaMul, getLsbD_seven_iff]
  split
  · rw [BitVec.toNat_setWidth, BitVec.toNat_xor, hdouble]
  · rw [BitVec.toNat_setWidth, hdouble]
    omega

theorem toNat_alphaDiv (p : Poly9) (x : Byte) :
    (alphaDiv p x).toNat = if x.toNat % 2 = 1 then (x.toNat ^^^ p.toNat) / 2 else x.toNat / 2 := by
  have hwide : (x.setWidth 9).toNat = x.toNat := BitVec.toNat_setWidth_of_le (by decide)
  have hhalve (w : BitVec 9) : ((w >>> 1).setWidth 8).toNat = w.toNat / 2 := by
    have hw : w.toNat < 512 := w.isLt
    rw [BitVec.toNat_setWidth, BitVec.toNat_ushiftRight, Nat.shiftRight_eq_div_pow]
    omega
  simp only [alphaDiv, getLsbD_zero_iff, hhalve]
  split
  · rw [BitVec.toNat_xor, hwide]
  · rw [hwide]

/-- Settles O28: the answered byte is `alphaMul`'s. -/
theorem amulDoublesAndReduces : Obligations.AmulDoublesAndReduces := fun x s =>
  ⟨_, exec_amul_eq x s, toNat_alphaMul _ x⟩

/-- Settles O29: the answered byte is `alphaDiv`'s. -/
theorem adivReducesAndHalves : Obligations.AdivReducesAndHalves := fun x s =>
  ⟨_, exec_adiv_eq x s, toNat_alphaDiv _ x⟩

/-! ### The answers bit by bit -/

/-- A word XORed in where a bit is set contributes its bits where that bit is set. -/
theorem getLsbD_ite_zero {n : Nat} (b : Bool) (v : BitVec n) (k : Nat) :
    (if b then v else 0).getLsbD k = (b && v.getLsbD k) := by
  cases b <;> simp

section
variable (p : Poly9) (x : Byte)

theorem alphaMul_eq : alphaMul p x = (x.setWidth 9 <<< 1 ^^^ (if x.getLsbD 7 then p else 0)).setWidth 8 := by
  unfold alphaMul
  split <;> simp

theorem alphaDiv_eq : alphaDiv p x = ((x.setWidth 9 ^^^ (if x.getLsbD 0 then p else 0)) >>> 1).setWidth 8 := by
  unfold alphaDiv
  split <;> simp

theorem getLsbD_alphaMul_zero : (alphaMul p x).getLsbD 0 = (x.getLsbD 7 && p.getLsbD 0) := by
  rw [alphaMul_eq, BitVec.getLsbD_setWidth, BitVec.getLsbD_xor, getLsbD_ite_zero]
  simp

theorem getLsbD_alphaMul_succ {k : Nat} (hk : k + 1 < 8) :
    (alphaMul p x).getLsbD (k + 1) = (x.getLsbD k ^^ (x.getLsbD 7 && p.getLsbD (k + 1))) := by
  have hwide : k + 1 < 9 := Nat.lt_succ_of_lt hk
  rw [alphaMul_eq, BitVec.getLsbD_setWidth, BitVec.getLsbD_xor, getLsbD_ite_zero]
  simp [hk, hwide]

theorem getLsbD_alphaDiv {k : Nat} (hk : k < 8) :
    (alphaDiv p x).getLsbD k = (x.getLsbD (k + 1) ^^ (x.getLsbD 0 && p.getLsbD (k + 1))) := by
  have hwide : k + 1 < 9 := Nat.succ_lt_succ hk
  rw [alphaDiv_eq, BitVec.getLsbD_setWidth, BitVec.getLsbD_ushiftRight, BitVec.getLsbD_xor, getLsbD_ite_zero]
  simp [hk, hwide, Nat.add_comm 1 k]

/-! ### The closed forms -/

theorem getLsbD_polyLow {k : Nat} (hk : k < 8) : (polyLow p).getLsbD k = p.getLsbD k := by
  simp [polyLow, hk]

theorem getLsbD_polyHigh {k : Nat} (hk : k < 8) : (polyHigh p).getLsbD k = p.getLsbD (k + 1) := by
  simp [polyHigh, hk, Nat.add_comm 1 k]

theorem alphaMul_closed : alphaMul p x = (x <<< 1) ^^^ (if x.getLsbD 7 then polyLow p else 0x00) := by
  refine BitVec.eq_of_getLsbD_eq fun k hk => ?_
  rw [BitVec.getLsbD_xor, getLsbD_ite_zero, getLsbD_polyLow p hk]
  cases k with
  | zero =>
    rw [getLsbD_alphaMul_zero, BitVec.getLsbD_shiftLeft]
    simp
  | succ k =>
    rw [getLsbD_alphaMul_succ p x hk, BitVec.getLsbD_shiftLeft]
    simp [hk]

theorem alphaDiv_closed : alphaDiv p x = (x >>> 1) ^^^ (if x.getLsbD 0 then polyHigh p else 0x00) := by
  refine BitVec.eq_of_getLsbD_eq fun k hk => ?_
  rw [getLsbD_alphaDiv p x hk, BitVec.getLsbD_xor, getLsbD_ite_zero, getLsbD_polyHigh p hk, BitVec.getLsbD_ushiftRight,
    Nat.add_comm 1 k]

end

theorem endsSet_iff (p : Poly9) : p.endsSet = true ↔ p.getLsbD 8 = true ∧ p.getLsbD 0 = true := by
  rw [Poly9.endsSet, Bool.and_eq_true]

/-- Settles O30: the ends of the polynomial are PHI's bit 7 and PLO's bit 0. -/
theorem amulAdivClosedForms : Obligations.AmulAdivClosedForms := by
  intro x s hends
  obtain ⟨h8, h0⟩ := (endsSet_iff _).mp hends
  refine ⟨?_, ?_, ?_, ?_⟩
  · rw [exec_amul_eq, alphaMul_closed]
  · rw [exec_adiv_eq, alphaDiv_closed]
  · rw [getLsbD_polyLow _ (by decide), h0]
  · rw [← getLsbD_seven_iff, getLsbD_polyHigh _ (by decide), h8]

/-! ### Linearity -/

/-- The multiple of `v` that a bit selects is linear in the bit. -/
theorem ite_xor_zero {n : Nat} (a b : Bool) (v : BitVec n) :
    (if a ^^ b then v else 0) = (if a then v else 0) ^^^ (if b then v else 0) := by
  cases a <;> cases b <;> simp

theorem alphaMul_xor (p : Poly9) (x y : Byte) : alphaMul p (x ^^^ y) = alphaMul p x ^^^ alphaMul p y := by
  rw [alphaMul_closed, alphaMul_closed, alphaMul_closed, BitVec.shiftLeft_xor_distrib, BitVec.getLsbD_xor, ite_xor_zero]
  ac_rfl

theorem alphaDiv_xor (p : Poly9) (x y : Byte) : alphaDiv p (x ^^^ y) = alphaDiv p x ^^^ alphaDiv p y := by
  rw [alphaDiv_closed, alphaDiv_closed, alphaDiv_closed, BitVec.ushiftRight_xor_distrib, BitVec.getLsbD_xor, ite_xor_zero]
  ac_rfl

theorem alphaMul_zero (p : Poly9) : alphaMul p 0x00 = 0x00 := by
  simp [alphaMul]

theorem alphaDiv_zero (p : Poly9) : alphaDiv p 0x00 = 0x00 := by
  simp [alphaDiv]

/-- Settles O33. The shifts are linear, and so is the multiple of the polynomial that the tested bit selects. -/
theorem alphaMapsAreLinear : Obligations.AlphaMapsAreLinear := fun p x y =>
  ⟨alphaMul_xor p x y, alphaMul_zero p, alphaDiv_xor p x y, alphaDiv_zero p⟩

/-! ### The round trips -/

section
variable {p : Poly9} (hends : p.endsSet = true) (x : Byte)
include hends

/-- With bit 8 of the polynomial set, bit 8 of the doubled value is cleared, and the equation holds at every index. -/
theorem getLsbD_alphaMul_succ_of_endsSet (k : Nat) :
    (alphaMul p x).getLsbD (k + 1) = (x.getLsbD k ^^ (x.getLsbD 7 && p.getLsbD (k + 1))) := by
  obtain ⟨h8, -⟩ := (endsSet_iff p).mp hends
  rcases Nat.lt_trichotomy k 7 with hk | rfl | hk
  · exact getLsbD_alphaMul_succ p x (Nat.succ_lt_succ hk)
  · rw [BitVec.getLsbD_of_ge _ _ le_rfl, h8, Bool.and_true, Bool.xor_self]
  · rw [BitVec.getLsbD_of_ge _ _ (by omega), BitVec.getLsbD_of_ge x k hk, BitVec.getLsbD_of_ge p _ (by omega), Bool.and_false,
      Bool.xor_false]

/-- The bit ADIV tests is the one AMUL tested. -/
theorem getLsbD_alphaMul_zero_of_endsSet : (alphaMul p x).getLsbD 0 = x.getLsbD 7 := by
  obtain ⟨-, h0⟩ := (endsSet_iff p).mp hends
  rw [getLsbD_alphaMul_zero, h0, Bool.and_true]

/-- The bit AMUL tests is the one ADIV tested. -/
theorem getLsbD_alphaDiv_seven_of_endsSet : (alphaDiv p x).getLsbD 7 = x.getLsbD 0 := by
  obtain ⟨h8, -⟩ := (endsSet_iff p).mp hends
  rw [getLsbD_alphaDiv p x (by decide), h8, BitVec.getLsbD_of_ge x _ le_rfl, Bool.and_true, Bool.false_xor]

/-- Both maps XOR the same bit of the polynomial in, or neither does. -/
theorem alphaDiv_alphaMul : alphaDiv p (alphaMul p x) = x := by
  refine BitVec.eq_of_getLsbD_eq fun k hk => ?_
  rw [getLsbD_alphaDiv _ _ hk, getLsbD_alphaMul_succ_of_endsSet hends, getLsbD_alphaMul_zero_of_endsSet hends, Bool.xor_assoc,
    Bool.xor_self, Bool.xor_false]

theorem alphaMul_alphaDiv : alphaMul p (alphaDiv p x) = x := by
  refine BitVec.eq_of_getLsbD_eq fun k hk => ?_
  cases k with
  | zero => rw [getLsbD_alphaMul_zero_of_endsSet hends, getLsbD_alphaDiv_seven_of_endsSet hends]
  | succ k =>
    rw [getLsbD_alphaMul_succ _ _ hk, getLsbD_alphaDiv _ _ (Nat.lt_of_succ_lt hk), getLsbD_alphaDiv_seven_of_endsSet hends,
      Bool.xor_assoc, Bool.xor_self, Bool.xor_false]

end

/-- Settles O31: no answer changes the build, so both commands use one polynomial. -/
theorem amulAndAdivUndoEachOther : Obligations.AmulAndAdivUndoEachOther := by
  intro x s hends
  refine ⟨⟨_, exec_amul_eq x s, ?_⟩, ⟨_, exec_adiv_eq x s, ?_⟩⟩
  · rw [exec_adiv_eq, alphaDiv_alphaMul hends]
  · rw [exec_amul_eq, alphaMul_alphaDiv hends]

/-- The byte 0x01 tells whether both ends are set: what ADIV makes of it has PHI's bit 7, and AMUL brings bit 0 back only with
PLO's. -/
theorem getLsbD_alphaMul_alphaDiv_one (p : Poly9) : (alphaMul p (alphaDiv p 0x01)).getLsbD 0 = p.endsSet := by
  have h7 : (alphaDiv p 0x01).getLsbD 7 = p.getLsbD 8 := by
    rw [getLsbD_alphaDiv p 0x01 (by decide)]
    simp
  rw [getLsbD_alphaMul_zero, h7, Poly9.endsSet]

/-- Each of R104's thirty polynomials. -/
theorem endsSet_of_mem_irreduciblePolys : ∀ p ∈ irreduciblePolys.toList, Poly9.endsSet p = true := by decide

/-- Settles O32: one direction is the round trips, the other the byte 0x01. -/
theorem roundTripNeedsBothEndBits : Obligations.RoundTripNeedsBothEndBits := by
  refine ⟨fun p => ⟨fun h => ?_, fun hends x => ⟨alphaDiv_alphaMul hends x, alphaMul_alphaDiv hends x⟩⟩,
    endsSet_of_mem_irreduciblePolys⟩
  obtain ⟨-, hone⟩ := h 0x01
  rw [← getLsbD_alphaMul_alphaDiv_one, hone]
  decide

/-! ### The quotient ring -/

theorem coeff_polyOf {n : Nat} (v : BitVec n) (k : Nat) : (polyOf v).coeff k = if v.getLsbD k then 1 else 0 := by
  have hterm (j : Nat) : (if v.getLsbD j then (Polynomial.X : Polynomial (ZMod 2)) ^ j else 0).coeff k =
      if k = j then (if v.getLsbD j then 1 else 0) else 0 := by
    cases v.getLsbD j <;> simp [Polynomial.coeff_X_pow]
  rw [polyOf, Polynomial.finsetSum_coeff, Finset.sum_congr rfl fun j _ => hterm j, Finset.sum_ite_eq]
  refine ite_eq_left_iff.mpr fun hk => ?_
  rw [BitVec.getLsbD_of_ge v k (by simpa using hk)]
  rfl

/-- XOR of bits is addition in GF(2), and a bit selects a coefficient or none. -/
theorem ite_xor_and : ∀ a b c : Bool, (if a ^^ (b && c) then 1 else 0 : ZMod 2) =
    (if a then 1 else 0) + if b then (if c then 1 else 0) else 0 := by decide

/-- Before the quotient is taken, AMUL's result is the product with `X`, and the polynomial once more where bit 7 was set. -/
theorem polyOf_alphaMul {p : Poly9} (hends : p.endsSet = true) (x : Byte) :
    polyOf (alphaMul p x) = Polynomial.X * polyOf x + (if x.getLsbD 7 then polyOf p else 0) := by
  have hcoeff (k : Nat) : (if x.getLsbD 7 then polyOf p else 0).coeff k =
      if x.getLsbD 7 then (if p.getLsbD k then 1 else 0) else 0 := by
    rw [apply_ite (Polynomial.coeff · k), coeff_polyOf, Polynomial.coeff_zero]
  ext k
  rw [Polynomial.coeff_add, hcoeff, coeff_polyOf]
  cases k with
  | zero =>
    rw [getLsbD_alphaMul_zero, ← Bool.false_xor (_ && _), ite_xor_and, Polynomial.mul_coeff_zero, Polynomial.coeff_X_zero,
      zero_mul]
    rfl
  | succ k => rw [getLsbD_alphaMul_succ_of_endsSet hends, ite_xor_and, Polynomial.coeff_X_mul, coeff_polyOf]

theorem mk_polyOf_alphaMul {p : Poly9} (hends : p.endsSet = true) (x : Byte) :
    AdjoinRoot.mk (polyOf p) (polyOf (alphaMul p x)) = AdjoinRoot.root (polyOf p) * AdjoinRoot.mk (polyOf p) (polyOf x) := by
  have hmultiple : AdjoinRoot.mk (polyOf p) (if x.getLsbD 7 then polyOf p else 0) = 0 := by
    split
    · exact AdjoinRoot.mk_self
    · exact map_zero _
  rw [polyOf_alphaMul hends, map_add, hmultiple, add_zero, map_mul, AdjoinRoot.mk_X]

/-- Settles O34: the quotient by alpha is the byte whose product with alpha is `x`, by the round trip. -/
theorem amulIsTheProductWithAlpha : Obligations.AmulIsTheProductWithAlpha := by
  intro p x hends
  refine ⟨mk_polyOf_alphaMul hends x, ?_⟩
  rw [← mk_polyOf_alphaMul hends, alphaMul_alphaDiv hends]

end Sys2Proof.Machine
end

section
/-! PROOFS of the statements on the Substitution Table (43_substitution_table.md R115, R116). A table of 256 entries that repeats
none is a bijection on the bytes, and the answer tells which entry was read. -/

namespace Sys2Proof.Machine

/-! ### The answer -/

theorem exec_sbox_eq {s : State} {table : Vector Byte SBOX_LEN} (h : s.build.sbox = some table) (idx : Byte) :
    exec (.sbox idx) s = .next (s.answer ⟨.ok, sboxRom table idx⟩) := by
  rw [exec_sbox_of_table h, finish_eq, complete_returnByte]

/-- Settles O35, in a build with the table and in one without. -/
theorem sboxReturnsItsEntry : Obligations.SboxReturnsItsEntry := by
  refine fun idx s _ => ⟨fun table htable => exec_sbox_eq htable idx, fun hnone => ?_⟩
  rw [exec_sbox_of_no_table hnone, finish_eq, complete_raised, OpError.status]

/-! ### The table's bijection -/

/-- Two answers that give one state are one response. -/
theorem State.answer_injective (s : State) : Function.Injective s.answer := fun _ _ h =>
  List.singleton_inj.mp (List.append_cancel_left (congrArg State.responses h))

theorem exec_sbox_ok_iff {s : State} {table : Vector Byte SBOX_LEN} (h : s.build.sbox = some table) (idx y : Byte) :
    exec (.sbox idx) s = .next (s.answer ⟨.ok, y⟩) ↔ sboxRom table idx = y := by
  rw [exec_sbox_eq h, Host.Outcome.next.injEq, s.answer_injective.eq_iff, Response.mk.injEq, eq_self, true_and]

theorem sboxRom_injective {table : Vector Byte SBOX_LEN} (h : table.toList.Nodup) : Function.Injective (sboxRom table) := by
  intro i j hij
  have hentries : table.toList[i.toNat]'(by simpa using i.isLt) = table.toList[j.toNat]'(by simpa using j.isLt) := by
    simpa [sboxRom] using hij
  exact BitVec.eq_of_toNat_eq (h.getElem_inj_iff.mp hentries)

/-- There are as many entries as byte values, so none is missing (R116). -/
theorem sboxRom_bijective {table : Vector Byte SBOX_LEN} (h : table.toList.Nodup) : Function.Bijective (sboxRom table) :=
  Finite.injective_iff_bijective.mp (sboxRom_injective h)

theorem exists_nodup_table {b : Build} (hwf : b.WellFormed) (hsbox : b.hasSbox = true) :
    ∃ table, b.sbox = some table ∧ table.toList.Nodup := by
  obtain ⟨table, htable⟩ := Option.isSome_iff_exists.mp hsbox
  obtain ⟨-, hnodup⟩ := hwf
  rw [htable, Option.all_some, decide_eq_true_iff] at hnodup
  exact ⟨table, htable, hnodup⟩

/-- Settles O36: the table is a bijection, and every index answers with its entry. -/
theorem sboxIsABijection : Obligations.SboxIsABijection := by
  intro s hwf hsbox y
  obtain ⟨table, htable, hnodup⟩ := exists_nodup_table hwf hsbox
  simp only [exec_sbox_ok_iff htable]
  exact (sboxRom_bijective hnodup).existsUnique y

end Sys2Proof.Machine
end

section
/-! PROOFS of the statements on errors, responses and faults (60_exceptions.md R120, R121, R124, R132). -/

namespace Sys2Proof.Machine

/-! ### Every word is answered -/

/-- Settles O8: a command line is the end of some operation applied to the state without the line. -/
theorem everyCommandWordIsAnswered : Obligations.EveryCommandWordIsAnswered := by
  intro s w rest hscript
  obtain ⟨r, hr⟩ := runCommand_eq_finish w (s.setScript rest)
  exact ⟨(s.setScript rest).complete r, r.response, (step_command hscript).trans hr, rfl, rfl, rfl, rfl⟩

/-! ### A failing command -/

/-- Only an end that raised an error is answered with a non-OK status, and it stores nothing (R124). -/
theorem complete_eq_answer_of_error {r : OpResult} (h : r.response.status ≠ .ok) (s : State) :
    s.complete r = s.answer r.response := by
  cases r with
  | ok res obuf => exact absurd rfl h
  | raised e => rfl

/-- A word ends the same in two states with equal constants and buffers: neither earlier responses nor later lines matter. -/
theorem runCommand_same_end (w : CmdWord) {s₁ s₂ : State} (hbuild : s₁.build = s₂.build) (hibuf : s₁.ibuf = s₂.ibuf)
    (hobuf : s₁.obuf = s₂.obuf) : ∃ r, runCommand w s₁ = finish r s₁ ∧ runCommand w s₂ = finish r s₂ := by
  unfold runCommand
  cases decode true w with
  | ok i => exact exec_same_end (hbuild ▸ sameConstantsFor_refl s₁.build i) hobuf (fun a _ => congrArg (Memory.read · a) hibuf)
  | error e => exact ⟨.raised .illegalCmd, rfl, rfl⟩

/-- Settles O9: the failing command has only added its response, and a response is nothing the next command reads. -/
theorem failingCommandLeavesNoTrace : Obligations.FailingCommandLeavesNoTrace := by
  intro s t w rest r hscript hstep hanswered herror
  obtain ⟨o, ho⟩ := runCommand_eq_finish w (s.setScript rest)
  obtain rfl : (s.setScript rest).complete o = t :=
    Host.Outcome.next.inj (ho.symm.trans ((step_command hscript).symm.trans hstep))
  obtain rfl : o.response = r := List.singleton_inj.mp (List.append_cancel_left hanswered)
  refine ⟨o.res_response_of_error herror, complete_eq_answer_of_error herror _, fun w' rest' hrest => ?_⟩
  rw [complete_eq_answer_of_error herror]
  obtain ⟨o', h, h'⟩ := runCommand_same_end w' (s₁ := ((s.setScript rest).answer o.response).setScript rest')
    (s₂ := s.setScript rest') rfl rfl rfl
  exact ⟨_, _, o'.response, (step_command hrest).trans h, (step_command hrest).trans h', rfl, rfl, rfl⟩

/-! ### Faults -/

/-- A step goes on, its line (if there is one) naming only indices of the buffers, or it faults at a host line that does not. -/
theorem step_next_or_fault (s : State) :
    ((∃ t, step s = .next t) ∧ ∀ line rest, s.script = line :: rest → line.wellFormed = true) ∨
    (∃ line rest, s.script = line :: rest ∧ line.wellFormed = false ∧ step s = .fault .hostIndexOutOfRange) := by
  rcases step_cases s with ⟨hs, he⟩ | ⟨w, rest, r, hs, he⟩ | hfault | ⟨m, bytes, rest, hs, hm, he⟩ |
    ⟨m, bytes, rest, hs, hm, he⟩ | ⟨n, rest, hs, hn, he⟩ | ⟨rest, hs, he⟩
  case inr.inr.inl => exact .inr hfault
  all_goals
    refine .inl ⟨⟨_, he⟩, fun line rest' hline => ?_⟩
    cases hs.symm.trans hline
  · rfl
  · exact decide_eq_true hm
  · exact decide_eq_true hm
  · exact decide_eq_true hn
  · rfl

/-- Settles O11: a step that goes on neither faults nor is refused, and its line is within the buffers. -/
theorem onlyHostLinesOutsideTheBuffersFault : Obligations.OnlyHostLinesOutsideTheBuffersFault := by
  refine ⟨fun s r hrefused => ?_, fun s => ?_⟩
  · rcases step_next_or_fault s with ⟨⟨t, he⟩, -⟩ | ⟨_, _, -, -, he⟩
    · cases he.symm.trans hrefused
    · cases he.symm.trans hrefused
  · rcases step_next_or_fault s with ⟨⟨t, he⟩, hwithin⟩ | ⟨line, rest, hs, houtside, he⟩
    · refine iff_of_false (fun ⟨f, hf⟩ => ?_) (fun ⟨line, rest, hs, houtside⟩ => ?_)
      · cases he.symm.trans hf
      · cases (hwithin line rest hs).symm.trans houtside
    · exact iff_of_true ⟨_, he⟩ ⟨line, rest, hs, houtside⟩

/-! ### INVALID_KEY_LENGTH -/

/-- The lengths PAD rejects are causes (a) and (b) of R121. -/
theorem not_padLegal_iff {len kb : Byte} : ¬ padLegal len kb ↔
    kb.toNat < len.toNat ∨ (len.toNat ≤ kb.toNat ∧ 32 < kb.toNat - len.toNat) := by
  unfold padLegal PAD_LEN
  omega

/-- Settles O14: PAD rejects the lengths that are not legal, MIX those below two, and the others answer OK, or ILLEGAL_CMD where
the table is absent. -/
theorem invalidKeyLengthExactlyForItsThreeCauses : Obligations.InvalidKeyLengthExactlyForItsThreeCauses := by
  intro i s
  cases i with
  | pad len kb =>
    by_cases hlegal : padLegal len kb
    · exact ⟨_, _, exec_pad_of_legal hlegal s, rfl, iff_of_false nofun (fun h => not_padLegal_iff.mpr h hlegal)⟩
    · exact ⟨_, _, exec_pad_of_not_legal hlegal s, rfl, iff_of_true rfl (not_padLegal_iff.mp hlegal)⟩
  | mix kb =>
    by_cases hshort : kb.toNat < 2
    · exact ⟨_, _, exec_mix_of_lt_two hshort s, rfl, iff_of_true rfl hshort⟩
    · exact ⟨_, _, exec_mix_of_two_le (Nat.le_of_not_lt hshort) s, rfl, iff_of_false nofun hshort⟩
  | padc idx => exact ⟨_, _, padcReturnsTheConstantByte idx s idx.isLt, rfl, iff_of_false nofun id⟩
  | amul x => exact ⟨_, _, exec_amul_eq x s, rfl, iff_of_false nofun id⟩
  | adiv x => exact ⟨_, _, exec_adiv_eq x s, rfl, iff_of_false nofun id⟩
  | sbox idx =>
    cases htable : s.build.sbox with
    | some table => exact ⟨_, _, exec_sbox_eq htable idx, rfl, iff_of_false nofun id⟩
    | none => exact ⟨_, _, exec_sbox_of_no_table htable idx, rfl, iff_of_false nofun id⟩

end Sys2Proof.Machine
end

section
/-! PROOFS of the statements on a run of the host's script (70_reset_and_hazards.md R143, R145 to R147). A run is the lines one
after the other, each a step of its own; what it comes to is put together by `State.Served.trans`. -/

namespace Sys2Proof.Machine

/-! ### The idle block -/

theorem step_of_script_nil {s : State} (h : s.script = []) : step s = .next s := by
  simp only [step, h]

/-- Settles O10: where no line is left, the step has nothing to take off. -/
theorem idleBlockTouchesNothing : Obligations.IdleBlockTouchesNothing := fun _ => step_of_script_nil

/-! ### What the lines of a script come to -/

/-- From `s` to `t` as many responses as `lines` has commands were added to those given before, and the constants are the same
(R25, R146). -/
def State.Served (s t : State) (lines : List ScriptLine) : Prop :=
  t.build = s.build ∧ ∃ answers : List Response, t.responses = s.responses ++ answers ∧ answers.length = commandCount lines

theorem State.Served.refl (s : State) : s.Served s [] := ⟨rfl, [], (List.append_nil _).symm, rfl⟩

theorem State.Served.trans {s t u : State} {lines more : List ScriptLine} (h : s.Served t lines) (h' : t.Served u more) :
    s.Served u (lines ++ more) := by
  obtain ⟨hbuild, answers, hresp, hlen⟩ := h
  obtain ⟨hbuild', answers', hresp', hlen'⟩ := h'
  refine ⟨hbuild'.trans hbuild, answers ++ answers', ?_, ?_⟩
  · rw [hresp', hresp, List.append_assoc]
  · rw [List.length_append, hlen, hlen', commandCount, commandCount, commandCount, List.countP_append]

/-- A command is served by the one response its end gives. -/
theorem State.served_complete (s : State) (w : CmdWord) (r : OpResult) : s.Served (s.complete r) [.command w] :=
  ⟨rfl, [r.response], rfl, rfl⟩

/-- A host action is no command, and gets no response. -/
theorem State.served_of_same_responses {s t : State} {line : ScriptLine} (hline : line.isCommand = false)
    (hbuild : t.build = s.build) (hresp : t.responses = s.responses) : s.Served t [line] :=
  ⟨hbuild, [], by rw [hresp, List.append_nil], by simp [commandCount, hline]⟩

/-! ### One line -/

theorem step_assertReset {s : State} {rest : List ScriptLine} (h : s.script = .assertReset :: rest) :
    step s = .next (s.setScript rest) := by
  simp [step, h, runLine, withinBuffers, ScriptLine.wellFormed]

/-- A line within the buffers is taken off the script and served in one step (R143, R145). -/
theorem step_serves_line {s : State} {line : ScriptLine} {rest : List ScriptLine} (hs : s.script = line :: rest)
    (hline : line.wellFormed = true) : ∃ t, step s = .next t ∧ t.script = rest ∧ s.Served t [line] := by
  cases line with
  | command w =>
    obtain ⟨r, hr⟩ := runCommand_eq_finish w (s.setScript rest)
    exact ⟨_, (step_command hs).trans hr, rfl, (s.setScript rest).served_complete w r⟩
  | storeIbuf m bytes =>
    exact ⟨_, step_storeIbuf hs (of_decide_eq_true hline), rfl, State.served_of_same_responses rfl rfl rfl⟩
  | storeObuf m bytes =>
    exact ⟨_, step_storeObuf hs (of_decide_eq_true hline), rfl, State.served_of_same_responses rfl rfl rfl⟩
  | copyObufToIbuf n =>
    exact ⟨_, step_copyObufToIbuf hs (of_decide_eq_true hline), rfl, State.served_of_same_responses rfl rfl rfl⟩
  | assertReset => exact ⟨_, step_assertReset hs, rfl, State.served_of_same_responses rfl rfl rfl⟩

/-! ### The whole script -/

theorem run_succ_of_step {s t : State} (h : step s = .next t) (k : Nat) : core.run (k + 1) s = core.run k t := by
  have hstep : core.step s = .next t := h
  simp only [Host.Core.run, hstep]

/-- The induction on the script: one step serves its first line and leaves the others. -/
theorem run_serves_script : ∀ {lines : List ScriptLine} {s : State}, s.script = lines → lines.all ScriptLine.wellFormed = true →
    ∃ t : State, core.run lines.length s = .next t ∧ t.script = [] ∧ s.Served t lines
  | [], s, hs, _ => ⟨s, rfl, hs, State.Served.refl s⟩
  | line :: rest, s, hs, hok => by
    obtain ⟨hline, hrest⟩ := Bool.and_eq_true_iff.mp (List.all_cons.symm.trans hok)
    obtain ⟨t, hstep, hscript, hserved⟩ := step_serves_line hs hline
    obtain ⟨u, hrun, hend, hserved'⟩ := run_serves_script hscript hrest
    exact ⟨u, (run_succ_of_step hstep rest.length).trans hrun, hend, hserved.trans hserved'⟩

/-- Settles O12, by induction on the script's lines. -/
theorem everyScriptRunsToItsEnd : Obligations.EveryScriptRunsToItsEnd := by
  intro s hok
  obtain ⟨t, hrun, hend, hbuild, answers, hresp, hlen⟩ := run_serves_script rfl hok
  exact ⟨t, answers, hrun, hend, hbuild, hresp, hlen⟩

end Sys2Proof.Machine
end

section
/-! PROOFS of the statements on the spec's own examples (30_encoding.md R63, R64; 95_test_vectors.md S1) and on a reset line
(70_reset_and_hazards.md R140). -/

namespace Sys2Proof.Machine

/-- Settles O1: each of the six words is its command's own, and the illegal ones are of the three kinds of R64. -/
theorem sampleWordsDecode : Obligations.SampleWordsDecode :=
  ⟨decode_encode (i := .pad 5 8) rfl, decode_encode (i := .padc 31) rfl, decode_encode (i := .mix 4) rfl,
   decode_encode (i := .amul 0x80) rfl, decode_encode (i := .adiv 2) rfl, decode_encode (i := .sbox 5) rfl,
   decode_sbox_absent 0x05 0x00, decode_unassigned true 0x00 0x00 (op := 0x00) (.inl rfl), decode_padc true 0x20 0x00⟩

/-- OBUF after MIX begins with the mixed key (R90). -/
theorem readRange_mixObuf {s : State} (hwf : s.obuf.wf = true) (kb : Byte) :
    (mixObuf kb s).readRange 0 kb.toNat = mixedKey kb s := by
  refine List.ext_getElem (by simp) fun i hi hlen => ?_
  rw [List.getElem_eq_iff, Memory.getElem?_readRange, if_pos (by simpa using hi), Nat.zero_add, read_mixObuf_below hwf hlen]

/-- Settles O24: OBUF begins with the mixed key, and the loop from the two seeds takes four zero bytes to the bytes of S1. -/
theorem mixOfFourZeroBytes : Obligations.MixOfFourZeroBytes := by
  intro s hwf hzero
  have hkey : paddedKey s 4 = [0x00, 0x00, 0x00, 0x00] := by
    simp [paddedKey, Memory.readRange, hzero]
  refine ⟨_, exec_mix_of_two_le (by decide) s, ?_⟩
  calc (mixObuf 4 s).readRange 0 4
    _ = mixLoop C2 C1 (paddedKey s 4) := readRange_mixObuf hwf 4
    _ = mixLoop C2 C1 [0x00, 0x00, 0x00, 0x00] := by rw [hkey]
    _ = [0xE0, 0x56, 0x36, 0x8C] := by decide

/-- Settles O39: a reset line names no index, so it is within the buffers and is only taken off. -/
theorem resetBetweenCommandsHasNoEffect : Obligations.ResetBetweenCommandsHasNoEffect := fun _ _ => step_assertReset

end Sys2Proof.Machine
end
